-- ==== Sys2Proof/Word.lean ====
section
/-! DEFINITION. The words of the register window (spec/00_scope.md R12, R14). -/

namespace Sys2Proof

/-- A host register, 32 bits wide (R12). -/
abbrev Word := BitVec 32

/-- A byte on the wire (R88). -/
abbrev Byte := BitVec 8

/-- A byte offset within the register window, the `addr` port (R6, R81). -/
abbrev Offset := BitVec 6

/-- A command code, the field CMD.OP (R110). -/
abbrev Code := BitVec 4

end Sys2Proof
end

