-- ==== Sys2Proof/Syntax.lean ====
section
/-! DEFINITION. The commands of OWM (spec/30_encoding.md R111, spec/opcode_table.json). A command carries no operand: every operand is read from a register or is a parameter (R112). -/

namespace Sys2Proof

/-- One constructor per row of the opcode table. The reserved codes 0xD and 0xE have no row (R113). -/
inductive Instr where
  /-- 0x0, R141. -/
  | nop
  /-- 0x1, R142. -/
  | reset
  /-- 0x2, R143. -/
  | writeBit
  /-- 0x3, R144. -/
  | readBit
  /-- 0x4, R170. -/
  | writeByte
  /-- 0x5, R171. -/
  | readByte
  /-- 0x6, R181. -/
  | skipRom
  /-- 0x7, R182. -/
  | matchRom
  /-- 0x8, R183. -/
  | readRom
  /-- 0x9, R195. -/
  | convert
  /-- 0xA, R196. -/
  | readScratch
  /-- 0xB, R200. -/
  | readTemp
  /-- 0xC, R210. -/
  | decode
  /-- 0xF, R140. -/
  | abort
  deriving DecidableEq, Repr

end Sys2Proof
end

