-- ==== Sys2Proof/Machine/Access.lean ====
section
/-! DEFINITION. What the world outside OWM can do to it: host accesses, ticks, clock cycles and reset cycles (spec/00_scope.md R5, R6; spec/20_memory.md R80, R100; spec/70 R270). -/

namespace Sys2Proof.Machine

/-- One host access to the register window (R80). The width is in bytes; the model refuses every width but 4 and
every misaligned offset (R82), so both are part of the data. -/
inductive HostAccess where
  /-- `MemRead(off, width)`. -/
  | read (width : Nat) (off : Offset)
  /-- `MemWrite(off, width, v)`. -/
  | write (width : Nat) (off : Offset) (v : Word)
  deriving DecidableEq, Repr

/-- One step of the total order of R100. -/
inductive Event where
  /-- A host access, atomic (R80). -/
  | host (a : HostAccess)
  /-- One engine step, one whole tick (R130, R138). -/
  | tick
  /-- One cycle of `clk`: a tick lasts max(TICKDIV, 1) of them (R130). -/
  | clk
  /-- One cycle of `clk` with `rst` = 1, and the host access made in that cycle, if any (R270). -/
  | rst (a : Option HostAccess)
  deriving DecidableEq, Repr

/-- The registers of the window (R30). -/
inductive Reg where
  | ctrl | cmd | status | data | addrLo | addrHi | romLo | romHi | raw | tempWhole | tempFrac | convTimeout | tickdiv
  deriving DecidableEq, Repr

/-- The access classes of R31. -/
inductive AccessClass where
  /-- Read and written by the host; writes dropped while busy. -/
  | rwIdle
  /-- Read only. -/
  | ro
  /-- CMD: write only, a write presents a command. -/
  | commandTrigger
  /-- STATUS: read, and written with ones to clear. -/
  | w1c
  deriving DecidableEq, Repr

end Sys2Proof.Machine
end

