-- ==== Sys2Proof/WellFormed.lean ====
section
/-! DEFINITION. Which host accesses the interface defines (spec/20_memory.md R82). A command word needs no check: every one decodes (spec/30_encoding.md R114) and no command has an operand field (R110). -/

namespace Sys2Proof

/-- Every command is well formed: the opcode table gives no command a field that could hold an illegal value
(R110, R112). -/
def Instr.wf (_ : Instr) : Bool := true

namespace Machine

/-- The width of an access in bytes. -/
def HostAccess.width : HostAccess → Nat
  | .read w _ => w
  | .write w _ _ => w

/-- The offset of an access. -/
def HostAccess.off : HostAccess → Offset
  | .read _ o => o
  | .write _ o _ => o

/-- Check 1 of R82: a 32-bit access. -/
def HostAccess.wideEnough (a : HostAccess) : Bool := a.width == 4

/-- Check 2 of R82: offset bits [1:0] are 0. -/
def HostAccess.aligned (a : HostAccess) : Bool := a.off.extractLsb' 0 2 == 0#2

/-- The only defined host access is an aligned 32-bit one (R82). -/
def HostAccess.wf (a : HostAccess) : Bool := a.wideEnough && a.aligned

end Machine
end Sys2Proof
end

