-- ==== Sys2Proof/Decode.lean ====
section
/-! DEFINITION. The command word (spec/30_encoding.md R110 to R114): the decoder, total on every 32-bit word and looking at bits 3:0 alone, and the encoder. -/

namespace Sys2Proof

/-- Why a word is no command: its code is reserved (R113). -/
inductive DecodeError where
  /-- OP 0xD or 0xE. -/
  | reservedCode (op : Code)
  deriving DecidableEq, Repr

/-- The field OP = v[3:0] of a word written to CMD (R110). -/
def opField (w : Word) : Code := w.extractLsb' 0 4

/-- The command map (R111). -/
def decodeOp (op : Code) : Except DecodeError Instr :=
  match op.toNat with
  | 0x0 => .ok .nop
  | 0x1 => .ok .reset
  | 0x2 => .ok .writeBit
  | 0x3 => .ok .readBit
  | 0x4 => .ok .writeByte
  | 0x5 => .ok .readByte
  | 0x6 => .ok .skipRom
  | 0x7 => .ok .matchRom
  | 0x8 => .ok .readRom
  | 0x9 => .ok .convert
  | 0xA => .ok .readScratch
  | 0xB => .ok .readTemp
  | 0xC => .ok .decode
  | 0xF => .ok .abort
  | _ => .error (.reservedCode op)

/-- The decoder looks at v[3:0] only (R110, R114). -/
def decode (w : Word) : Except DecodeError Instr := decodeOp (opField w)

/-- The code of a command (R111). -/
def opcode : Instr → Code
  | .nop => 0x0
  | .reset => 0x1
  | .writeBit => 0x2
  | .readBit => 0x3
  | .writeByte => 0x4
  | .readByte => 0x5
  | .skipRom => 0x6
  | .matchRom => 0x7
  | .readRom => 0x8
  | .convert => 0x9
  | .readScratch => 0xA
  | .readTemp => 0xB
  | .decode => 0xC
  | .abort => 0xF

/-- A word of a command with any value in the ignored bits 31:4 (R110). -/
def encodeWith (ignored : BitVec 28) (i : Instr) : Word := ignored ++ opcode i

/-- The word software should write: bits 31:4 are 0 (R110). -/
def encode (i : Instr) : Word := encodeWith 0 i

/-- The decoder on a row of the opcode table, whose one 32-bit word has its bits numbered as the table numbers them;
bits above `nbits` are 0. -/
def decodeTableWord (nbits w : Nat) : Option Instr :=
  match decode (BitVec.ofNat 32 (w % 2 ^ nbits)) with
  | .ok i => some i
  | .error _ => none

end Sys2Proof
end

