-- ==== Sys2Proof/Machine/BitFields.lean ====
section
/-! DEFINITION. Bit fields of registers and buffers (spec/00_scope.md R14): one bit, one byte, and their updates. -/

namespace Sys2Proof.Machine

/-- `v[i] <- b`, the other bits unchanged (R14). -/
def setBit {n : Nat} (v : BitVec n) (i : Nat) (b : Bool) : BitVec n :=
  if b then v ||| BitVec.twoPow n i else v &&& ~~~ BitVec.twoPow n i

/-- Byte k of a value: `v[8k+7 : 8k]` (R38, R86). -/
def byteOf {n : Nat} (v : BitVec n) (k : Nat) : Byte := v.extractLsb' (8 * k) 8

/-- The low n bits of a register. -/
def low {m : Nat} (n : Nat) (v : BitVec m) : BitVec n := v.extractLsb' 0 n

/-- `zext_32(v)` (R15). -/
def zext32 {n : Nat} (v : BitVec n) : Word := v.setWidth 32

end Sys2Proof.Machine
end

