-- ==== Sys2Proof/Config.lean ====
section
/-! DEFINITION. The parameters of the model (spec/00_scope.md R12, R13), its open constants and its free values. -/

namespace Sys2Proof

/-- The parameters that some rule of the semantics reads (R12). R13 calls them parameters of the model and not
constants of its semantics, so the machine carries them as data (`State.params`) and a statement about every state is
a statement about every value of them. DESIGN CHOICE, notes/assumptions/1.md. -/
structure Params where
  /-- `T_REC`, the recovery ticks after every bit slot (D4, U15). -/
  tRec : Nat
  /-- `CMD_SKIP_ROM`. -/
  cmdSkipRom : Byte
  /-- `CMD_MATCH_ROM`. -/
  cmdMatchRom : Byte
  /-- `CMD_READ_ROM`. -/
  cmdReadRom : Byte
  /-- `CMD_CONVERT_T`. -/
  cmdConvertT : Byte
  /-- `CMD_READ_SCRATCHPAD`. -/
  cmdReadScratchpad : Byte
  /-- `TICKDIV_RESET`, the reset value of TICKDIV. -/
  tickdivReset : BitVec 16
  deriving DecidableEq, Repr

/-- The platform's choice behind `TICKDIV_RESET` (OPEN: R12, U12). No body: nothing can evaluate it. -/
opaque Config.tickdivChoice : BitVec 16

/-- `TICKDIV_RESET` lies in 1..65535 (R12); every value of that range is some choice's. -/
def Config.tickdivReset : BitVec 16 :=
  if Config.tickdivChoice = 0 then 1 else Config.tickdivChoice

/-- `F_CLK`, the frequency of `clk` in hertz (OPEN: R12, U11). No rule of the semantics reads it (R130, R285). -/
opaque Config.fClk : Nat

/-- The platform's choice behind `OW_BASE` (OPEN: R12, U13). -/
opaque Config.owBaseChoice : Nat

/-- `OW_BASE`, the base of the register window in the host's address space, 64-byte aligned (R12, R83). -/
def Config.owBase : Nat := 64 * Config.owBaseChoice

/-- `SYNC_STAGES`, the depth of the synchronizer on `ow_in` (R7, R12), below the resolution of a tick. -/
def Config.syncStages : Nat := 2

/-- The level of the line at the n-th sample of a run when the bus environment has given no level in advance
(R95: a draw under no constraint). A FREE VALUE: no body, notes/assumptions/5.md. -/
opaque Config.freeLevel : Nat → Bool

/-- The parameters at reset: T_REC at its decided value, the wire bytes at the defaults of U14 (K1 to K5, which the
spec marks as general knowledge: PRESUMED), `TICKDIV_RESET` open. -/
def Config.params : Params where
  tRec := 1
  cmdSkipRom := 0xCC
  cmdMatchRom := 0x55
  cmdReadRom := 0x33
  cmdConvertT := 0x44
  cmdReadScratchpad := 0xBE
  tickdivReset := Config.tickdivReset

end Sys2Proof
end

