-- ==== Sys2Proof/Machine/State.lean ====
section
/-! DEFINITION. The state of OWM (spec/10_state.md), its value at reset (R70), and the reasons a step can stop. -/

namespace Sys2Proof.Machine

/-- The slot kinds of R61 and R115; no slot in progress is `none` of `Option SlotKind`. -/
inductive SlotKind where
  /-- Reset/presence slot (R135). -/
  | rst
  /-- Write-0 slot (R136). -/
  | w0
  /-- Write-1 slot (R136). -/
  | w1
  /-- Read slot (R137). -/
  | rd
  deriving DecidableEq, Repr

/-- The micro-steps of R133. -/
inductive MicroStep where
  | rstp
  | rstc
  | wbit (b : Bool)
  | rbit
  | wb (x : Byte)
  | rb (n : Nat)
  | addrs
  | poll
  deriving DecidableEq, Repr

/-- The sequencer position (R60): idle, or a position in the micro-program of the running command. -/
inductive Seq where
  | idle
  | pos (n : Nat)
  deriving DecidableEq, Repr

/-- The host-visible registers that hold state (R30); CMD holds none (R34). -/
structure Regs where
  ctrl : Word
  status : Word
  data : Word
  addrLo : Word
  addrHi : Word
  romLo : Word
  romHi : Word
  raw : Word
  tempWhole : Word
  tempFrac : Word
  convTimeout : Word
  tickdiv : Word
  deriving DecidableEq, Repr

/-- The engine state of R61, and the sampled level `s` of R135 and R138. -/
structure Engine where
  /-- The command running, or the last that ran; none before the first. -/
  op : Option Instr
  seq : Seq
  slot : Option SlotKind
  /-- Tick index within the current slot. -/
  k : Nat
  /-- Byte shift register (R172). -/
  sr : Byte
  /-- Bits done in the current byte. -/
  nbit : Nat
  /-- Bytes done in the current micro-step. -/
  nbyte : Nat
  /-- Received bytes (R173). -/
  buf : BitVec 64
  /-- Presence result of the last reset slot; true = present. -/
  pres : Bool
  presValid : Bool
  /-- Ticks elapsed in the POLL micro-step, saturating at 2^32 - 1 (R193, R256). -/
  pollE : Nat
  pollHit : Bool
  /-- Prescaler count (R130). -/
  psc : Nat
  /-- The value on `ow_drive_low`; true pulls the line low. -/
  drive : Bool
  /-- The level `s` sampled in the current slot (R135, R137). DEDUCED, notes/assumptions/9.md. -/
  sampled : Bool
  deriving DecidableEq, Repr

/-- The machine, with the coming events and line levels of its environment as plain data. -/
structure State where
  /-- The parameters of R12, fixed for the machine (notes/assumptions/1.md). -/
  params : Params
  regs : Regs
  engine : Engine
  /-- The output `rdata`: what the last host read returned (R6, R84). -/
  rdata : Word
  /-- The coming steps of the total order of R100, the next first. The model's own field. -/
  pending : List Event
  /-- The levels the bus environment gives at the coming samples, the next first (R95). The model's own field. -/
  levels : List Bool
  /-- How many samples have been taken: the argument of the free level. The model's own field. -/
  draws : Nat
  deriving DecidableEq, Repr

/-- Why the machine stops with a fault. -/
inductive Fault where
  /-- Raised by a tick in a state no run reaches: BUSY = 1 and no micro-step is current. The spec describes no such
  state. Safe: the model stops there (notes/assumptions/16.md). -/
  | engineLost
  deriving DecidableEq, Repr

/-- Why the model has no transition. -/
inductive Refusal where
  /-- An instruction that has no meaning yet; raised by no arm. Safe. -/
  | notModelled (mnemonic : String)
  /-- Raised by a host access that is not 32 bits wide (R82, U10: refuse). Safe. -/
  | accessNot32Bits
  /-- Raised by a 32-bit host access whose offset is not a multiple of 4 (R82, U10: refuse). Safe. -/
  | accessMisaligned
  deriving DecidableEq, Repr

/-- The registers after reset (R70). -/
def Regs.reset (p : Params) : Regs where
  ctrl := 0
  status := 0
  data := 0
  addrLo := 0
  addrHi := 0
  romLo := 0
  romHi := 0
  raw := 0
  tempWhole := 0
  tempFrac := 0
  convTimeout := 750000
  tickdiv := p.tickdivReset.setWidth 32

/-- The engine after reset (the reset column of R61; `sampled` is a DESIGN CHOICE, notes/assumptions/9.md). -/
def Engine.reset : Engine where
  op := none
  seq := .idle
  slot := none
  k := 0
  sr := 0
  nbit := 0
  nbyte := 0
  buf := 0
  pres := false
  presValid := false
  pollE := 0
  pollHit := false
  psc := 0
  drive := false
  sampled := false

/-- The machine right after reset (R70), with no event and no level announced. -/
def State.reset : State where
  params := Config.params
  regs := Regs.reset Config.params
  engine := Engine.reset
  rdata := 0
  pending := []
  levels := []
  draws := 0

end Sys2Proof.Machine
end

