-- ==== Sys2Proof/Machine/Flags.lean ====
section
/-! DEFINITION. The flags (spec/10_state.md R32, R35, R42, R46): the bits of STATUS and CTRL, the write-one-to-clear rule, the error codes (spec/60 R247) and the interrupt output (R250). -/

namespace Sys2Proof.Machine

/-- The bits of STATUS (R35). -/
abbrev bitBusy : Nat := 0
abbrev bitDone : Nat := 1
abbrev bitPresent : Nat := 2
abbrev bitErrAbsent : Nat := 3
abbrev bitErrTimeout : Nat := 4
abbrev bitErrIllegal : Nat := 5
abbrev bitErrBusy : Nat := 6
abbrev bitErrAborted : Nat := 7

/-- STATUS.BUSY. -/
def State.busy (s : State) : Bool := s.regs.status.getLsbD bitBusy
/-- STATUS.DONE. -/
def State.done (s : State) : Bool := s.regs.status.getLsbD bitDone
/-- STATUS.PRESENT. -/
def State.present (s : State) : Bool := s.regs.status.getLsbD bitPresent

/-- CTRL.ADDR_MODE; true = unicast (R32). -/
def Regs.addrMode (r : Regs) : Bool := r.ctrl.getLsbD 0
/-- CTRL.UNIT; true = Fahrenheit. -/
def Regs.unit (r : Regs) : Bool := r.ctrl.getLsbD 1
/-- CTRL.CMODE; true = sign-extended Celsius. -/
def Regs.cmode (r : Regs) : Bool := r.ctrl.getLsbD 2
/-- CTRL.FMODE; true = floor division. -/
def Regs.fmode (r : Regs) : Bool := r.ctrl.getLsbD 3
/-- CTRL.IE. -/
def Regs.ie (r : Regs) : Bool := r.ctrl.getLsbD 4

/-- The output `irq` = CTRL.IE AND STATUS.DONE, a level (R250). -/
def State.irq (s : State) : Bool := s.regs.ie && s.done

/-- `STATUS[i] <- b`. -/
def State.setStatus (i : Nat) (b : Bool) (s : State) : State :=
  { s with regs := { s.regs with status := setBit s.regs.status i b } }

/-- The W1C bits of STATUS: DONE and the error bits (R35, R85). -/
def w1cMask : Word := 0xFA

/-- A host write to STATUS: a written 1 clears a W1C bit, everything else is unchanged (R35, R85). -/
def State.clearStatus (v : Word) (s : State) : State :=
  { s with regs := { s.regs with status := s.regs.status &&& ~~~ (v &&& w1cMask) } }

/-- The STATUS bit an error sets; it is the error's code (R247). -/
def errAbsentCode : Nat := bitErrAbsent
def errTimeoutCode : Nat := bitErrTimeout
def errIllegalCode : Nat := bitErrIllegal
def errBusyCode : Nat := bitErrBusy
def errAbortedCode : Nat := bitErrAborted

end Sys2Proof.Machine
end

