-- ==== Sys2Proof/Machine/Operands.lean ====
section
/-! DEFINITION. The operands of the commands (spec/30_encoding.md R112): register fields, the address bytes, and the micro-programs built from them (spec/40_slot_engine.md R133). -/

namespace Sys2Proof.Machine

/-- DATA[7:0] (R37). -/
def Regs.dataByte (r : Regs) : Byte := low 8 r.data
/-- DATA[0], the operand of WRITE_BIT (R37). -/
def Regs.dataBit (r : Regs) : Bool := r.data.getLsbD 0
/-- `ADDR = ADDR_HI : ADDR_LO` (R38). -/
def Regs.addr (r : Regs) : BitVec 64 := r.addrHi ++ r.addrLo
/-- `ROM = ROM_HI : ROM_LO` (R39). -/
def Regs.rom (r : Regs) : BitVec 64 := r.romHi ++ r.romLo
/-- Address byte j, `ADDR[8j+7 : 8j]` (R38). -/
def Regs.addrByte (r : Regs) (j : Nat) : Byte := byteOf r.addr j
/-- `raw16 = RAW[15:0]` (R40). -/
def Regs.raw16 (r : Regs) : BitVec 16 := low 16 r.raw
/-- The bound of the poll in ticks; 0 is unbounded (R43). -/
def Regs.pollBound (r : Regs) : Nat := r.convTimeout.toNat
/-- Clock cycles per tick, `max(TICKDIV, 1)`; TICKDIV is bits 15:0 (R44, R130). -/
def Regs.tickCycles (r : Regs) : Nat := max (low 16 r.tickdiv).toNat 1

/-- How many bytes the addressing step sends: 1 broadcast, 9 unicast (R190). -/
def addrsBytes (r : Regs) : Nat := if r.addrMode then 9 else 1

/-- Byte n of the addressing step: the skip or match command byte, then the address bytes in order (R190, R89). -/
def addrsByte (p : Params) (r : Regs) (n : Nat) : Byte :=
  if r.addrMode then
    match n with
    | 0 => p.cmdMatchRom
    | j + 1 => r.addrByte j
  else p.cmdSkipRom

/-- Phase 1 of the conversion exchange (R195). -/
def convertProgram (p : Params) : List MicroStep := [.rstc, .addrs, .wb p.cmdConvertT, .poll]

/-- Phase 2 of the conversion exchange (R196). -/
def scratchProgram (p : Params) : List MicroStep := [.rstc, .addrs, .wb p.cmdReadScratchpad, .rb 2]

/-- The micro-program of each command (R133). NOP, DECODE and ABORT have no ticks and no micro-program. -/
def program (p : Params) (r : Regs) : Instr → List MicroStep
  | .nop => []
  | .reset => [.rstp]
  | .writeBit => [.wbit r.dataBit]
  | .readBit => [.rbit]
  | .writeByte => [.wb r.dataByte]
  | .readByte => [.rb 1]
  | .skipRom => [.wb p.cmdSkipRom]
  | .matchRom => [.wb p.cmdMatchRom, .wb (r.addrByte 0), .wb (r.addrByte 1), .wb (r.addrByte 2), .wb (r.addrByte 3), .wb (r.addrByte 4), .wb (r.addrByte 5), .wb (r.addrByte 6), .wb (r.addrByte 7)]
  | .readRom => [.wb p.cmdReadRom, .rb 8]
  | .convert => convertProgram p
  | .readScratch => scratchProgram p
  | .readTemp => convertProgram p ++ scratchProgram p
  | .decode => []
  | .abort => []

/-- The micro-step the sequencer stands at (R60). -/
def State.currentStep (s : State) : Option MicroStep :=
  match s.engine.op, s.engine.seq with
  | some i, .pos n => (program s.params s.regs i)[n]?
  | _, _ => none

end Sys2Proof.Machine
end

