-- ==== Sys2Proof/Machine/Formulas.lean ====
section
/-! DEFINITION. The temperature formulas on mathematical integers (spec/44_decoder.md R211 to R219, R222) and the decode step that writes TEMP_WHOLE and TEMP_FRAC (R212). -/

namespace Sys2Proof.Machine

/-- A decoded reading before it is packed into registers: whole, fractional, NEG and RANGE (R212). -/
structure Reading where
  whole : Int
  frac : Nat
  neg : Bool
  range : Bool
  deriving DecidableEq, Repr

/-- `byte0` and `byte1` (R211). -/
def byte0 (raw16 : BitVec 16) : Byte := byteOf raw16 0
def byte1 (raw16 : BitVec 16) : Byte := byteOf raw16 1

/-- The fractional part of both Celsius formulas (R213). -/
def celsiusFrac (b0 : Byte) : Nat := (b0 &&& 0x0F).toNat * 625

/-- The reference formula, positive temperatures only (R215). -/
def celsiusRef (raw16 : BitVec 16) : Reading where
  whole := ((((byte1 raw16).setWidth 16 &&& 0x07) <<< 4) ||| ((byte0 raw16).setWidth 16 >>> 4)).toNat
  frac := celsiusFrac (byte0 raw16)
  neg := false
  range := raw16.extractLsb' 11 5 != 0

/-- The sign-extended formula (R216). -/
def celsiusSext (raw16 : BitVec 16) : Reading where
  whole := raw16.toInt.fdiv 16
  frac := celsiusFrac (byte0 raw16)
  neg := raw16.toInt < 0
  range := false

/-- Tenths of a degree Fahrenheit under truncation (R217, R218). -/
def tenthsTrunc (raw : Int) : Int := raw + raw.tdiv 8 + 320

/-- Tenths of a degree Fahrenheit under floor division (R217, R219). -/
def tenthsFloor (raw : Int) : Int := raw + raw.fdiv 8 + 320

/-- The reference Fahrenheit formula, truncating toward zero (R218). -/
def fahrTrunc (raw : Int) : Reading where
  whole := (tenthsTrunc raw).tdiv 10
  frac := ((tenthsTrunc raw).tmod 10).natAbs
  neg := tenthsTrunc raw < 0
  range := false

/-- The floor policy (R219). -/
def fahrFloor (raw : Int) : Reading where
  whole := (tenthsFloor raw).fdiv 10
  frac := ((tenthsFloor raw).fmod 10).toNat
  neg := tenthsFloor raw < 0
  range := false

/-- The choice of formula by CTRL.UNIT, CMODE and FMODE (R212). -/
def selectFormula (unit cmode fmode : Bool) (raw16 : BitVec 16) : Reading :=
  if unit then
    if fmode then fahrFloor raw16.toInt else fahrTrunc raw16.toInt
  else
    if cmode then celsiusSext raw16 else celsiusRef raw16

/-- TEMP_WHOLE: the whole part as 32-bit two's complement (R41, R212). -/
def Reading.wholeWord (x : Reading) : Word := BitVec.ofInt 32 x.whole

/-- TEMP_FRAC: `neg : rng : zext_14(0) : f[15:0]` (R42, R212). -/
def Reading.fracWord (x : Reading) : Word :=
  BitVec.ofBool x.neg ++ (BitVec.ofBool x.range ++ (0#14 ++ BitVec.ofNat 16 x.frac))

/-- The reading of RAW under CTRL (R212, R221). -/
def Regs.reading (r : Regs) : Reading := selectFormula r.unit r.cmode r.fmode r.raw16

/-- `Decode()`: both result registers in one step (R212). -/
def State.decodeTemp (s : State) : State :=
  { s with regs := { s.regs with tempWhole := s.regs.reading.wholeWord, tempFrac := s.regs.reading.fracWord } }

end Sys2Proof.Machine
end

