-- ==== Sys2Proof/Machine/Ops.lean ====
section
/-! DEFINITION. The operations the commands and the engine share: the register window (spec/10_state.md R30, R31; spec/20_memory.md R84, R85), acceptance (spec/40 R132), commit and completion (R133, R134), the error end (spec/60 R245) and the host-step errors (R140, R242, R243), and the line's draws (spec/20 R95). -/

namespace Sys2Proof.Machine

/-! ### The register window -/

/-- The offset of a register in the window (R30). -/
def Reg.off : Reg → Offset
  | .ctrl => 0x00
  | .cmd => 0x04
  | .status => 0x08
  | .data => 0x0C
  | .addrLo => 0x10
  | .addrHi => 0x14
  | .romLo => 0x18
  | .romHi => 0x1C
  | .raw => 0x20
  | .tempWhole => 0x24
  | .tempFrac => 0x28
  | .convTimeout => 0x2C
  | .tickdiv => 0x30

/-- The register at an aligned offset; 0x34, 0x38 and 0x3C are unmapped (R30, R45). -/
def regAt (off : Offset) : Option Reg :=
  match off.toNat with
  | 0x00 => some .ctrl
  | 0x04 => some .cmd
  | 0x08 => some .status
  | 0x0C => some .data
  | 0x10 => some .addrLo
  | 0x14 => some .addrHi
  | 0x18 => some .romLo
  | 0x1C => some .romHi
  | 0x20 => some .raw
  | 0x24 => some .tempWhole
  | 0x28 => some .tempFrac
  | 0x2C => some .convTimeout
  | 0x30 => some .tickdiv
  | _ => none

/-- The access class of a register (R30, R31). -/
def Reg.accessClass : Reg → AccessClass
  | .ctrl => .rwIdle
  | .cmd => .commandTrigger
  | .status => .w1c
  | .data => .rwIdle
  | .addrLo => .rwIdle
  | .addrHi => .rwIdle
  | .romLo => .ro
  | .romHi => .ro
  | .raw => .rwIdle
  | .tempWhole => .ro
  | .tempFrac => .ro
  | .convTimeout => .rwIdle
  | .tickdiv => .rwIdle

/-- The defined bits of a register (R32, R35, R37, R40, R42, R44, R85); the others read 0 and ignore writes (R45). -/
def Reg.mask : Reg → Word
  | .ctrl => 0x1F
  | .cmd => 0
  | .status => 0xFF
  | .data => 0xFF
  | .addrLo => 0xFFFFFFFF
  | .addrHi => 0xFFFFFFFF
  | .romLo => 0xFFFFFFFF
  | .romHi => 0xFFFFFFFF
  | .raw => 0xFFFF
  | .tempWhole => 0xFFFFFFFF
  | .tempFrac => 0xC000FFFF
  | .convTimeout => 0xFFFFFFFF
  | .tickdiv => 0xFFFF

/-- The word a register reads as; CMD reads 0 (R34, R84). -/
def Regs.get (r : Regs) : Reg → Word
  | .ctrl => r.ctrl
  | .cmd => 0
  | .status => r.status
  | .data => r.data
  | .addrLo => r.addrLo
  | .addrHi => r.addrHi
  | .romLo => r.romLo
  | .romHi => r.romHi
  | .raw => r.raw
  | .tempWhole => r.tempWhole
  | .tempFrac => r.tempFrac
  | .convTimeout => r.convTimeout
  | .tickdiv => r.tickdiv

/-- Replaces the stored word of a register; CMD stores nothing (R34). -/
def Regs.put (r : Regs) (v : Word) : Reg → Regs
  | .ctrl => { r with ctrl := v }
  | .cmd => r
  | .status => { r with status := v }
  | .data => { r with data := v }
  | .addrLo => { r with addrLo := v }
  | .addrHi => { r with addrHi := v }
  | .romLo => { r with romLo := v }
  | .romHi => { r with romHi := v }
  | .raw => { r with raw := v }
  | .tempWhole => { r with tempWhole := v }
  | .tempFrac => { r with tempFrac := v }
  | .convTimeout => { r with convTimeout := v }
  | .tickdiv => { r with tickdiv := v }

/-- `MemRead(off, 4)`: unmapped offsets read 0 (R45, R84). -/
def memRead (s : State) (off : Offset) : Word :=
  match regAt off with
  | some r => s.regs.get r
  | none => 0

/-! ### Errors raised in a host step -/

/-- A busy violation: ERR_BUSY and nothing else; the write is dropped (R243). -/
def State.busyViolation (s : State) : State := s.setStatus errBusyCode true

/-- A reserved command code presented while idle (R242). -/
def State.illegalCommand (s : State) : State := (s.setStatus errIllegalCode true).setStatus bitDone true

/-- A host write to an RW-idle register (R31, R85). -/
def State.writeIdle (r : Reg) (v : Word) (s : State) : State :=
  if s.busy then s.busyViolation
  else { s with regs := s.regs.put (v &&& r.mask) r }

/-! ### The life of a command -/

/-- The line released, no position and the host told: the common end of completion, error and ABORT
(R134, R140, R245). -/
def State.endCommand (s : State) : State :=
  ((({ s with engine := { s.engine with drive := false, seq := .idle } } : State).setStatus bitBusy false).setStatus bitDone true)

/-- No slot in progress. -/
def State.dropSlot (s : State) : State := { s with engine := { s.engine with slot := none } }

/-- Acceptance of a command with ticks (R132). -/
def State.accept (i : Instr) (s : State) : State :=
  let s := (s.setStatus bitBusy true).setStatus bitDone false
  { s with engine := { s.engine with op := some i, seq := .pos 0, psc := 0, slot := none, k := 0, nbit := 0, nbyte := 0, buf := 0, sr := 0, presValid := false, pollE := 0, pollHit := false } }

/-- `STATUS.PRESENT <- pres` (R47, R133). -/
def State.commitPresent (s : State) : State := s.setStatus bitPresent s.engine.pres

/-- PRESENT, RAW and the decode of RAW: the commit of READ_SCRATCH and READ_TEMP (R133). -/
def State.commitScratch (s : State) : State :=
  let s := s.commitPresent
  ({ s with regs := { s.regs with raw := zext32 (low 16 s.engine.buf) } } : State).decodeTemp

/-- The commit column of R133; DECODE's commit is the decode step (R210). -/
def State.commit (i : Instr) (s : State) : State :=
  match i with
  | .nop => s
  | .reset => s.commitPresent
  | .writeBit => s
  | .readBit => { s with regs := { s.regs with data := zext32 (BitVec.ofBool (s.engine.buf.getLsbD 0)) } }
  | .writeByte => s
  | .readByte => { s with regs := { s.regs with data := zext32 (low 8 s.engine.buf) } }
  | .skipRom => s
  | .matchRom => s
  | .readRom => { s with regs := { s.regs with romLo := s.engine.buf.extractLsb' 0 32, romHi := s.engine.buf.extractLsb' 32 32 } }
  | .convert => s.commitPresent
  | .readScratch => s.commitScratch
  | .readTemp => s.commitScratch
  | .decode => s.decodeTemp
  | .abort => s

/-- Completion: the commits, then the end of the command, in one step (R134). -/
def State.complete (i : Instr) (s : State) : State := (s.commit i).endCommand

/-- The errors a running command raises (R240, R241). -/
inductive RunError where
  | absent
  | timeout
  deriving DecidableEq, Repr

/-- The STATUS bit of an error (R247). -/
def RunError.code : RunError → Nat
  | .absent => errAbsentCode
  | .timeout => errTimeoutCode

/-- `raise E`: OWM's one exception entry. It records PRESENT when a reset slot ran and the error bit, commits nothing
else, and ends the command (R245, R251). -/
def State.raise (e : RunError) (s : State) : State :=
  let s := if s.engine.presValid then s.commitPresent else s
  (s.setStatus e.code true).dropSlot.endCommand

/-- The return from an error: the host's acknowledgement, one write of ones to STATUS (R252; `clrstat` of R119). -/
def State.acknowledge (s : State) : State := s.clearStatus 0xFE

/-- ABORT of a running command: the line released at once, no commit (R140, R244). -/
def State.abortRunning (s : State) : State := s.dropSlot.endCommand.setStatus errAbortedCode true

/-- Presentation of a command with ticks (R131, last arm, and the busy test before it). -/
def State.presentTicks (i : Instr) (s : State) : State :=
  if s.busy then s.busyViolation else s.accept i

/-- Presentation of a command without ticks, run and completed in the presenting step (R131, R134). -/
def State.presentNow (i : Instr) (s : State) : State :=
  if s.busy then s.busyViolation else (s.setStatus bitDone false).complete i

/-- Presentation of a reserved code (R131, R113, R248). -/
def State.presentReserved (s : State) : State :=
  if s.busy then s.busyViolation else s.illegalCommand

/-! ### The line -/

/-- The level the bus environment gives at this sample: announced, or free (R95). -/
def State.lineLevel (s : State) : Bool :=
  match s.levels with
  | b :: _ => b
  | [] => Config.freeLevel s.draws

/-- `s <- Sample()` (R16, R95): the draw is kept in the slot's latch and used up. -/
def State.sample (s : State) : State :=
  { s with engine := { s.engine with sampled := s.lineLevel }, levels := s.levels.tail, draws := s.draws + 1 }

/-- `Drive(LOW)` is true, `Drive(REL)` false (R16). -/
def State.driveLine (low : Bool) (s : State) : State := { s with engine := { s.engine with drive := low } }

/-! ### Reset -/

/-- A cycle with `rst` = 1: every register and all engine state at its reset value, `rdata` 0; what the environment
will do next is not the machine's to reset (R270, R271). -/
def State.resetCycle (s : State) : State :=
  { s with regs := Regs.reset s.params, engine := Engine.reset, rdata := 0 }

end Sys2Proof.Machine
end

