-- ==== Sys2Proof/Machine/Slots.lean ====
section
/-! DEFINITION. The slot waveforms (spec/40_slot_engine.md R135 to R137, R139): length, level in each tick, sample tick. -/

namespace Sys2Proof.Machine

/-- `L_SLOT = 60 + T_REC` (R139). -/
def slotTicks (p : Params) : Nat := 60 + p.tRec

/-- `L_BYTE = 8 * L_SLOT` (R139). -/
def byteTicks (p : Params) : Nat := 8 * slotTicks p

/-- Ticks of a slot (R135 to R137). -/
def SlotKind.length (p : Params) : SlotKind → Nat
  | .rst => 960
  | .w0 => slotTicks p
  | .w1 => slotTicks p
  | .rd => slotTicks p

/-- Whether OWM drives the line low in tick k of a slot (R135 to R137). -/
def SlotKind.drivesLow (kd : SlotKind) (k : Nat) : Bool :=
  match kd with
  | .rst => k < 480
  | .w0 => k < 60
  | .w1 => k == 0
  | .rd => k == 0

/-- Whether the line is sampled in tick k of a slot (R135 to R137). -/
def SlotKind.samplesAt (kd : SlotKind) (k : Nat) : Bool :=
  match kd with
  | .rst => k == 540
  | .w0 => false
  | .w1 => false
  | .rd => k == 15

/-- The write slot that carries a bit (R115). -/
def writeSlot (b : Bool) : SlotKind := if b then .w1 else .w0

/-- The slot stream of a byte, bit 0 first (R88, R116, R172). -/
def byteSlots (x : Byte) : List SlotKind := (List.range 8).map fun i => writeSlot (x.getLsbD i)

/-- The levels OWM puts on its output in the ticks of a slot; true = driven low (R135 to R137). -/
def SlotKind.wave (p : Params) (kd : SlotKind) : List Bool := (List.range (kd.length p)).map kd.drivesLow

end Sys2Proof.Machine
end

