-- ==== Sys2Proof/Machine/Engine.lean ====
section
/-! DEFINITION. The engine (spec/40_slot_engine.md R130, R133, R138; spec/41 R172, R173; spec/43 R190 to R194): one tick of a running command, and the prescaler. -/

namespace Sys2Proof.Machine

/-- The shift register at the start of a byte (R172). -/
def State.loadByte (x : Byte) (s : State) : State :=
  if s.engine.nbit = 0 then { s with engine := { s.engine with sr := x } } else s

/-- Gets the byte of a sending micro-step ready; the others load nothing (R172, R190). -/
def State.loadOperand (m : MicroStep) (s : State) : State :=
  match m with
  | .rstp => s
  | .rstc => s
  | .wbit _ => s
  | .rbit => s
  | .wb x => s.loadByte x
  | .rb _ => s
  | .addrs => s.loadByte (addrsByte s.params s.regs s.engine.nbyte)
  | .poll => s

/-- The slot a micro-step runs next; a sending byte sends `sr[0]` (R133, R172). -/
def State.nextSlot (m : MicroStep) (s : State) : SlotKind :=
  match m with
  | .rstp => .rst
  | .rstc => .rst
  | .wbit b => writeSlot b
  | .rbit => .rd
  | .wb _ => writeSlot (s.engine.sr.getLsbD 0)
  | .rb _ => .rd
  | .addrs => writeSlot (s.engine.sr.getLsbD 0)
  | .poll => .rd

/-- `if slot = NONE: start the next slot of the current micro-step; k <- 0` (R138). -/
def State.beginSlot (m : MicroStep) (s : State) : State :=
  match s.engine.slot with
  | some _ => s
  | none =>
    let s := s.loadOperand m
    { s with engine := { s.engine with slot := some (s.nextSlot m), k := 0 } }

/-- One more bit of a byte done; the eighth ends the byte (R172, R173). DESIGN CHOICE, notes/assumptions/10.md: in the
tick that ends the eighth slot `nbit` returns to 0 and `nbyte` counts the byte, so `nbit` never holds the 8 that R61
allows. -/
def State.countBit (s : State) : State :=
  if s.engine.nbit + 1 = 8 then { s with engine := { s.engine with nbit := 0, nbyte := s.engine.nbyte + 1 } }
  else { s with engine := { s.engine with nbit := s.engine.nbit + 1 } }

/-- A bit of a sent byte is out (R172). -/
def State.shiftOut (s : State) : State :=
  ({ s with engine := { s.engine with sr := s.engine.sr >>> 1 } } : State).countBit

/-- A received bit goes to `buf[8j+i]` (R173). -/
def State.shiftIn (s : State) : State :=
  ({ s with engine := { s.engine with buf := setBit s.engine.buf (8 * s.engine.nbyte + s.engine.nbit) s.engine.sampled } } : State).countBit

/-- The presence result of a reset slot (R133, R135). -/
def State.takePresence (s : State) : State :=
  { s with engine := { s.engine with pres := !s.engine.sampled, presValid := true } }

/-- Delivers the result of the slot that ended to its micro-step (R133, R138). -/
def State.deliver (m : MicroStep) (s : State) : State :=
  match m with
  | .rstp => s.takePresence
  | .rstc => s.takePresence
  | .wbit _ => s
  | .rbit => { s with engine := { s.engine with buf := setBit s.engine.buf 0 s.engine.sampled } }
  | .wb _ => s.shiftOut
  | .rb _ => s.shiftIn
  | .addrs => s.shiftOut
  | .poll => s

/-- Whether the micro-step has run its last slot (R133, R172, R173, R190, R193). -/
def State.stepFinished (m : MicroStep) (s : State) : Bool :=
  match m with
  | .rstp => true
  | .rstc => true
  | .wbit _ => true
  | .rbit => true
  | .wb _ => s.engine.nbyte == 1
  | .rb n => s.engine.nbyte == n
  | .addrs => s.engine.nbyte == addrsBytes s.regs
  | .poll => s.engine.pollHit

/-- The counters of a micro-step at its start; `poll_e` and `poll_hit` are 0 on entry to POLL (R61, R193). -/
def State.enterStep (n : Nat) (s : State) : State :=
  { s with engine := { s.engine with seq := .pos n, nbit := 0, nbyte := 0, pollE := 0, pollHit := false } }

/-- Advances `seq` to the next micro-step, or completes the command after the last (R60, R134, R138). -/
def State.advance (s : State) : State :=
  match s.engine.op, s.engine.seq with
  | some i, .pos n =>
    if n + 1 < (program s.params s.regs i).length then s.enterStep (n + 1) else s.complete i
  | _, _ => s

/-- RSTC raises ABSENT when no device answered (R191). -/
def State.absenceRaised (m : MicroStep) (s : State) : Bool := m == .rstc && !s.engine.pres

/-- The end of a slot (R138): delivery, then the error of RSTC, the next micro-step, or the next slot of this one. -/
def State.endSlot (m : MicroStep) (s : State) : State :=
  let s := ({ s with engine := { s.engine with slot := none, k := 0 } } : State).deliver m
  if s.absenceRaised m then s.raise .absent
  else if s.stepFinished m then s.advance
  else s

/-- Drive, sample and count one tick of slot `kd` (R138); the tick's clock cycles are over (R130). In POLL a sample of
1 sets `poll_hit` at once (R193). -/
def State.slotTick (m : MicroStep) (kd : SlotKind) (s : State) : State :=
  let k := s.engine.k
  let s := s.driveLine (kd.drivesLow k)
  let s := if kd.samplesAt k then
      let s := s.sample
      { s with engine := { s.engine with pollHit := s.engine.pollHit || (m == .poll && s.engine.sampled) } }
    else s
  { s with engine := { s.engine with k := k + 1, psc := 0 } }

/-- `poll_e <- min(poll_e + 1, 2^32 - 1)` in a poll tick (R193). -/
def State.pollCount (m : MicroStep) (s : State) : State :=
  if m = .poll then { s with engine := { s.engine with pollE := min (s.engine.pollE + 1) (2 ^ 32 - 1) } } else s

/-- The timeout test of a poll tick (R193). -/
def State.pollTimesOut (m : MicroStep) (s : State) : Bool :=
  m == .poll && !s.engine.pollHit && s.regs.pollBound != 0 && s.engine.pollE == s.regs.pollBound

/-- One tick of micro-step m, from a state with a slot begun (R138). -/
def State.runTick (m : MicroStep) (kd : SlotKind) (s : State) : State :=
  let s := (s.slotTick m kd).pollCount m
  if s.pollTimesOut m then s.raise .timeout
  else if s.engine.k = kd.length s.params then s.endSlot m
  else s

/-- `EngineTick()` (R138). An idle engine does not tick (R130); a tick of a busy engine with no current micro-step or
slot is a state no run reaches. -/
def engineTick (s : State) : Host.Outcome State Fault Refusal :=
  if s.busy then
    match s.currentStep with
    | none => .fault .engineLost
    | some m =>
      let s := s.beginSlot m
      match s.engine.slot with
      | none => .fault .engineLost
      | some kd => .next (s.runTick m kd)
  else .next s

/-- The level OWM drives in the coming tick, `level(slot, k)` of R138; true = low. An idle engine drives nothing
(R99). -/
def State.tickLow (s : State) : Bool :=
  if s.busy then
    match s.currentStep with
    | none => false
    | some m =>
      let s := s.beginSlot m
      match s.engine.slot with
      | none => false
      | some kd => kd.drivesLow s.engine.k
  else false

/-- A clock cycle: the last of the max(TICKDIV, 1) cycles of a tick runs the tick (R130, R44). DESIGN CHOICE,
notes/assumptions/7.md. -/
def clockEvent (s : State) : Host.Outcome State Fault Refusal :=
  if s.busy then
    if s.engine.psc + 1 < s.regs.tickCycles then .next { s with engine := { s.engine with psc := s.engine.psc + 1 } }
    else engineTick s
  else .next s

end Sys2Proof.Machine
end

