-- ==== Sys2Proof/Machine/Addressing.lean ====
section
/-! DEFINITION. Presentation of the addressing commands (spec/42_addressing.md R181 to R183). None sends a reset slot (D16). -/

namespace Sys2Proof.Machine

/-- SKIP_ROM (R181). -/
def execSkipRom (s : State) : Host.Outcome State Fault Refusal := .next (s.presentTicks .skipRom)

/-- MATCH_ROM (R182). -/
def execMatchRom (s : State) : Host.Outcome State Fault Refusal := .next (s.presentTicks .matchRom)

/-- READ_ROM (R183). -/
def execReadRom (s : State) : Host.Outcome State Fault Refusal := .next (s.presentTicks .readRom)

end Sys2Proof.Machine
end

