-- ==== Sys2Proof/Machine/Bits.lean ====
section
/-! DEFINITION. Presentation of the engine-control and bit commands (spec/40_slot_engine.md R131, R140 to R144). -/

namespace Sys2Proof.Machine

/-- NOP (R141): DONE cleared and set again in the presenting step. -/
def execNop (s : State) : Host.Outcome State Fault Refusal := .next (s.presentNow .nop)

/-- RESET (R142). -/
def execReset (s : State) : Host.Outcome State Fault Refusal := .next (s.presentTicks .reset)

/-- WRITE_BIT (R143). -/
def execWriteBit (s : State) : Host.Outcome State Fault Refusal := .next (s.presentTicks .writeBit)

/-- READ_BIT (R144). -/
def execReadBit (s : State) : Host.Outcome State Fault Refusal := .next (s.presentTicks .readBit)

/-- ABORT (R140): the one command accepted while busy; no effect when idle. -/
def execAbort (s : State) : Host.Outcome State Fault Refusal :=
  .next (if s.busy then s.abortRunning else s)

end Sys2Proof.Machine
end

