-- ==== Sys2Proof/Machine/Bytes.lean ====
section
/-! DEFINITION. Presentation of the byte commands (spec/41_bytes.md R170, R171). -/

namespace Sys2Proof.Machine

/-- WRITE_BYTE (R170). -/
def execWriteByte (s : State) : Host.Outcome State Fault Refusal := .next (s.presentTicks .writeByte)

/-- READ_BYTE (R171). -/
def execReadByte (s : State) : Host.Outcome State Fault Refusal := .next (s.presentTicks .readByte)

end Sys2Proof.Machine
end

