-- ==== Sys2Proof/Machine/Conversion.lean ====
section
/-! DEFINITION. Presentation of the conversion commands (spec/43_conversion.md R195, R196, R200). -/

namespace Sys2Proof.Machine

/-- CONVERT (R195). -/
def execConvert (s : State) : Host.Outcome State Fault Refusal := .next (s.presentTicks .convert)

/-- READ_SCRATCH (R196). -/
def execReadScratch (s : State) : Host.Outcome State Fault Refusal := .next (s.presentTicks .readScratch)

/-- READ_TEMP (R200). -/
def execReadTemp (s : State) : Host.Outcome State Fault Refusal := .next (s.presentTicks .readTemp)

end Sys2Proof.Machine
end

