-- ==== Sys2Proof/Machine/Temperature.lean ====
section
/-! DEFINITION. Presentation of DECODE (spec/44_decoder.md R210). -/

namespace Sys2Proof.Machine

/-- DECODE (R210): the decode step in the presenting host step. -/
def execDecode (s : State) : Host.Outcome State Fault Refusal := .next (s.presentNow .decode)

end Sys2Proof.Machine
end

