-- ==== Sys2Proof/Machine/Dispatch.lean ====
section
/-! DEFINITION. The presentation of each command (spec/40_slot_engine.md R131), one arm per row of the opcode table. -/

namespace Sys2Proof.Machine

def exec (i : Instr) (s : State) : Host.Outcome State Fault Refusal :=
  match i with
  | .nop => Sys2Proof.Machine.execNop s
  | .reset => Sys2Proof.Machine.execReset s
  | .writeBit => Sys2Proof.Machine.execWriteBit s
  | .readBit => Sys2Proof.Machine.execReadBit s
  | .writeByte => Sys2Proof.Machine.execWriteByte s
  | .readByte => Sys2Proof.Machine.execReadByte s
  | .skipRom => Sys2Proof.Machine.execSkipRom s
  | .matchRom => Sys2Proof.Machine.execMatchRom s
  | .readRom => Sys2Proof.Machine.execReadRom s
  | .convert => Sys2Proof.Machine.execConvert s
  | .readScratch => Sys2Proof.Machine.execReadScratch s
  | .readTemp => Sys2Proof.Machine.execReadTemp s
  | .decode => Sys2Proof.Machine.execDecode s
  | .abort => Sys2Proof.Machine.execAbort s

end Sys2Proof.Machine
end

