-- ==== Sys2Proof/Machine/Window.lean ====
section
/-! DEFINITION. Host accesses to the register window and the events of the total order (spec/20_memory.md R80 to R85, R100; spec/40 R131; spec/70 R270), and the host notation of spec/30 R118, R119. -/

namespace Sys2Proof.Machine

/-- A host write of v to CMD presents the command v[3:0]; a reserved code has its own arm (R131). -/
def presentCommand (v : Word) (s : State) : Host.Outcome State Fault Refusal :=
  match decode v with
  | .ok i => exec i s
  | .error (.reservedCode _) => .next s.presentReserved

/-- A write to a mapped register, by its access class (R31, R85). -/
def writeReg (r : Reg) (v : Word) (s : State) : Host.Outcome State Fault Refusal :=
  match r.accessClass with
  | .commandTrigger => presentCommand v s
  | .w1c => .next (s.clearStatus v)
  | .rwIdle => .next (s.writeIdle r v)
  | .ro => .next s

/-- `MemWrite(off, 4, v)`; a write to an unmapped offset is ignored (R45, R85). -/
def memWrite (off : Offset) (v : Word) (s : State) : Host.Outcome State Fault Refusal :=
  match regAt off with
  | some r => writeReg r v s
  | none => .next s

/-- One host step (R80); an access that is not 32 bits wide or not aligned is refused (R82). -/
def hostStep (a : HostAccess) (s : State) : Host.Outcome State Fault Refusal :=
  if !a.wideEnough then .refused .accessNot32Bits
  else if !a.aligned then .refused .accessMisaligned
  else
    match a with
    | .read _ off => .next { s with rdata := memRead s off }
    | .write _ off v => memWrite off v s

/-- One step of the total order (R100). A host access in a cycle with `rst` = 1 is ignored (R270). -/
def runEvent (e : Event) (s : State) : Host.Outcome State Fault Refusal :=
  match e with
  | .host a => hostStep a s
  | .tick => engineTick s
  | .clk => clockEvent s
  | .rst _ => .next s.resetCycle

/-! ### Host notation (R118, R119) -/

/-- `wr REG, v`. -/
def wr (r : Reg) (v : Word) : HostAccess := .write 4 r.off v
/-- `rd REG`. -/
def rd (r : Reg) : HostAccess := .read 4 r.off
/-- `ow.MNEMONIC`. -/
def ow (i : Instr) : HostAccess := wr .cmd (encode i)
/-- `clrstat`. -/
def clrstat : HostAccess := wr .status 0xFE
/-- `setaddr a`. -/
def setaddr (a : BitVec 64) : List HostAccess :=
  [wr .addrLo (a.extractLsb' 0 32), wr .addrHi (a.extractLsb' 32 32)]
/-- One round of `wait`: the read of STATUS, and whether the value read sends the host back to it. -/
def waitRead : HostAccess := rd .status
def waitAgain (status : Word) : Bool := status.getLsbD 0

/-- The address of a register in the host's address space (R83). -/
def Reg.hostAddress (r : Reg) : Nat := Config.owBase + r.off.toNat

/-- Byte lane i of a register, bits [8i+7 : 8i] (R86). -/
def byteLane (w : Word) (i : Nat) : Byte := byteOf w i

/-- Sets the first 32-bit word of the coming host program, a write to CMD, as the machine's next event. -/
def placeCommand (nbits w : Nat) (s : State) : State :=
  { s with pending := .host (wr .cmd (BitVec.ofNat 32 (w % 2 ^ nbits))) :: s.pending }

end Sys2Proof.Machine
end

