-- ==== Sys2Proof/Machine/Step.lean ====
section
/-! DEFINITION. One step of OWM: the next event of the total order of spec/20_memory.md R100. OWM fetches nothing (R104); a command comes as a host write to CMD. -/

namespace Sys2Proof.Machine

/-- The next event of the order, or a tick of the engine when none is announced (R100: while BUSY = 1 the engine
takes a tick eventually). DESIGN CHOICE, notes/assumptions/4.md. -/
def step (s : State) : Host.Outcome State Fault Refusal :=
  match s.pending with
  | [] => runEvent .tick s
  | e :: rest => runEvent e { s with pending := rest }

/-- The machine whose next event is the host's write of this word to CMD (notes/assumptions/6.md). -/
def State.withFetchWord (s : State) (nbits w : Nat) : State := placeCommand nbits w s

/-- n engine ticks in a row, with no host step between. -/
def runTicks : Nat → State → Host.Outcome State Fault Refusal
  | 0, s => .next s
  | n + 1, s =>
    match engineTick s with
    | .next t => runTicks n t
    | .fault r => .fault r
    | .refused r => .refused r

/-- What OWM drives on the line in the next n ticks, first to last; true = low (R138, R259). -/
def lineTrace : Nat → State → List Bool
  | 0, _ => []
  | n + 1, s =>
    s.tickLow ::
      match engineTick s with
      | .next t => lineTrace n t
      | .fault _ => []
      | .refused _ => []

end Sys2Proof.Machine
end

