-- ==== Sys2Proof/Safety.lean ====
section
/-! DEFINITION. What a good state of OWM is, what a run of a command is, and the words the claims use for its end. -/

namespace Sys2Proof.Machine

/-! ### Good states -/

/-- The reserved bits of every register read 0 (R31, R45). -/
def Regs.ReservedZero (r : Regs) : Prop := ∀ x : Reg, r.get x &&& ~~~ x.mask = 0

/-- How many bytes a micro-step moves; 1 for the micro-steps of single slots (R133, R190). -/
def MicroStep.bytes (r : Regs) : MicroStep → Nat
  | .rstp => 1
  | .rstc => 1
  | .wbit _ => 1
  | .rbit => 1
  | .wb _ => 1
  | .rb n => n
  | .addrs => addrsBytes r
  | .poll => 1

/-- The engine of a machine with BUSY = 0: no position, no slot, the line released (R60, R99). -/
structure State.AtRest (s : State) : Prop where
  seq : s.engine.seq = .idle
  slot : s.engine.slot = none
  drive : s.engine.drive = false

/-- The engine of a machine with BUSY = 1 that stands at micro-step m (R36, R60, R61). -/
structure State.RunsStep (s : State) (m : MicroStep) : Prop where
  current : s.currentStep = some m
  done : s.done = false
  bits : s.engine.nbit < 8
  bytes : s.engine.nbyte < m.bytes s.regs
  index : ∀ kd, s.engine.slot = some kd → 0 < s.engine.k ∧ s.engine.k < kd.length s.params
  kind : ∀ kd, s.engine.slot = some kd → kd = s.nextSlot m
  line : ∀ kd, s.engine.slot = some kd → s.engine.drive = kd.drivesLow (s.engine.k - 1)

/-- The invariant: reserved bits are 0, the counters fit their widths, and the engine is at rest or stands at a
micro-step of the running command. -/
structure State.Inv (s : State) : Prop where
  reserved : s.regs.ReservedZero
  pollE : s.engine.pollE < 2 ^ 32
  psc : s.engine.psc < 2 ^ 16
  rest : s.busy = false → s.AtRest
  runs : s.busy = true → ∃ m, s.RunsStep m

/-- A host access the interface defines, or an event that is no host access (R82). -/
def Event.Defined : Event → Prop
  | .host a => a.wf = true
  | .tick => True
  | .clk => True
  | .rst _ => True

/-- The event the next step runs. -/
def State.nextEvent (s : State) : Event := s.pending.headD .tick

/-- The tick is calibrated to one microsecond, which OWM does not check (R44, R280). -/
def State.Calibrated (s : State) : Prop := Config.fClk = s.regs.tickCycles * 1000000

/-! ### The bus environment's answers -/

/-- The level of the line at the j-th sample from now: announced or free (R95). -/
def State.levelAt (s : State) (j : Nat) : Bool := s.levels.getD j (Config.freeLevel (s.draws + j))

/-- The bits received in n read slots whose first is sample `first`, the first bit lowest (R173). -/
def State.received (s : State) (first : Nat) : Nat → BitVec 64
  | 0 => 0
  | n + 1 => setBit (s.received first n) n (s.levelAt (first + n))

/-! ### Runs of commands -/

/-- n engine ticks lead from a to t with BUSY = 1 and every register unchanged before each of them, and put the levels w
on the line (R31, R138): after every tick that leaves the command running, `ow_drive_low` itself shows that tick's level
(R61, R259). -/
structure TicksTo (n : Nat) (a t : State) (w : List Bool) : Prop where
  run : runTicks n a = .next t
  trace : lineTrace n a = w
  before : ∀ j < n, ∃ m, runTicks j a = .next m ∧ m.busy = true ∧ m.regs = a.regs
  pin : ∀ j < n, ∀ m, runTicks (j + 1) a = .next m → m.busy = true → w[j]? = some m.engine.drive

/-- Command i presented in s is accepted, runs exactly n ticks and ends in t; no register changes between its
acceptance and its last tick, and w is what the line shows (R31, R138). -/
def RunsIn (i : Instr) (n : Nat) (s t : State) (w : List Bool) : Prop :=
  ∃ a, exec i s = .next a ∧ TicksTo n a t w

/-- Command i presented in s takes its first sample in tick k after acceptance, and in none before (R135, R137). -/
def SamplesInTick (i : Instr) (k : Nat) (s : State) : Prop :=
  ∃ a m t, exec i s = .next a ∧ runTicks k a = .next m ∧ m.draws = s.draws ∧ engineTick m = .next t ∧
    t.draws = s.draws + 1

/-- The machine t after a command that was presented in s and has ended: the registers, the samples used up, the line
released, the environment's order untouched. -/
structure Ended (s t : State) (r : Regs) (samples : Nat) : Prop where
  regs : t.regs = r
  rest : t.AtRest
  levels : t.levels = s.levels.drop samples
  draws : t.draws = s.draws + samples
  params : t.params = s.params
  pending : t.pending = s.pending
  rdata : t.rdata = s.rdata

/-- STATUS with DONE set. -/
def withDone (status : Word) : Word := setBit status bitDone true

/-- STATUS with PRESENT at p and DONE set. -/
def withPresence (p : Bool) (status : Word) : Word := withDone (setBit status bitPresent p)

/-- The registers after the commit of a scratchpad read: RAW and its decode under CTRL (R133, R212). -/
def Regs.withRaw (r : Regs) (raw : BitVec 16) : Regs :=
  let x := selectFormula r.unit r.cmode r.fmode raw
  { r with raw := zext32 raw, tempWhole := x.wholeWord, tempFrac := x.fracWord }

/-- The waves of a list of slots, one after the other. -/
def slotWaves (p : Params) (l : List SlotKind) : List Bool := l.flatMap (SlotKind.wave p)

/-- The bytes the addressing step sends, in order (R190), read from CTRL[0] and ADDR_HI : ADDR_LO and not from the
engine's own operands: the skip command, or the match command and the eight address bytes, byte 0 first. -/
def addrsList (p : Params) (r : Regs) : List Byte :=
  if r.ctrl.getLsbD 0 then
    p.cmdMatchRom :: (List.range 8).map fun j => (r.addrHi ++ r.addrLo).extractLsb' (8 * j) 8
  else [p.cmdSkipRom]

/-- The slots of a list of bytes. -/
def bytesSlots (l : List Byte) : List SlotKind := l.flatMap byteSlots

/-- Ticks of the addressing step, A of R139: L_BYTE broadcast, 9 * L_BYTE unicast. -/
def addrsTicks (p : Params) (r : Regs) : Nat := if r.ctrl.getLsbD 0 then 9 * byteTicks p else byteTicks p

/-- Ticks of a conversion phase up to its poll (R139, R195). -/
def pollStart (p : Params) (r : Regs) : Nat := 960 + addrsTicks p r + byteTicks p

/-- Ticks of a scratchpad phase (R139, R196). -/
def scratchTicks (p : Params) (r : Regs) : Nat := 960 + addrsTicks p r + 3 * byteTicks p

/-- The slots of a conversion phase up to its poll (R117). -/
def convertSlots (p : Params) (r : Regs) : List SlotKind :=
  .rst :: bytesSlots (addrsList p r ++ [p.cmdConvertT])

/-- The slots of a scratchpad phase (R117). -/
def scratchSlots (p : Params) (r : Regs) : List SlotKind :=
  .rst :: (bytesSlots (addrsList p r ++ [p.cmdReadScratchpad]) ++ List.replicate 16 .rd)

end Sys2Proof.Machine
end

