-- ==== Sys2Proof/Certificates/Slice0/Obligations.lean ====
section
/-! DEFINITION. The statements for the provers. Each docstring names the rules of spec/ it formalises. A statement about every state holds for every value of the parameters of R12, for every interleaving of R100 and for every level of the line (R95), since State holds all three as data or reads them through a free value. -/

open Sys2Proof Sys2Proof.Machine

/-! ### The command word -/

/-- R111, R113: one word of each code, with the ignored bits 0, decodes to its command; 0x00000011 is RESET; the
reserved codes are refused by name. -/
def Obligations.CommandWordsDecodeAsTheMapSays : Prop :=
  decode 0x00000000 = .ok .nop ∧ decode 0x00000001 = .ok .reset ∧ decode 0x00000002 = .ok .writeBit ∧
  decode 0x00000003 = .ok .readBit ∧ decode 0x00000004 = .ok .writeByte ∧ decode 0x00000005 = .ok .readByte ∧
  decode 0x00000006 = .ok .skipRom ∧ decode 0x00000007 = .ok .matchRom ∧ decode 0x00000008 = .ok .readRom ∧
  decode 0x00000009 = .ok .convert ∧ decode 0x0000000A = .ok .readScratch ∧ decode 0x0000000B = .ok .readTemp ∧
  decode 0x0000000C = .ok .decode ∧ decode 0x0000000F = .ok .abort ∧ decode 0x00000011 = .ok .reset ∧
  decode 0x0000000D = .error (.reservedCode 0xD) ∧ decode 0x0000000E = .error (.reservedCode 0xE)

/-- R110, R114: decoding inverts encoding whatever the ignored bits hold; every word that decodes to a command is one
of that command's words; the other words are exactly those with a reserved code in bits 3:0. -/
def Obligations.DecodeAndEncodeAgree : Prop :=
  (∀ (i : Instr) (u : BitVec 28), decode (encodeWith u i) = .ok i) ∧
  (∀ (w : Word) (i : Instr), decode w = .ok i → w = encodeWith (w.extractLsb' 4 28) i) ∧
  (∀ (w : Word) (op : Code), decode w = .error (.reservedCode op) ↔
    op = w.extractLsb' 0 4 ∧ (op = 0xD ∨ op = 0xE))

/-! ### Steps -/

/-- R85, R131: a host write to CMD whose word decodes to i presents i to the machine with that event taken off the
order; `withFetchWord` places such a write. -/
def Obligations.StepPresentsTheDecodedCommand : Prop :=
  ∀ (s : State) (v : Word) (i : Instr) (rest : List Event), decode v = .ok i →
    (s.pending = .host (.write 4 0x04 v) :: rest → step s = exec i { s with pending := rest }) ∧
    step (s.withFetchWord 32 v.toNat) = exec i s

/-- R100, R130, R138, D34 and the model's choice of notes/assumptions/4.md: with no event announced the engine takes
a tick; an announced tick is the same engine step. An idle engine does not tick. -/
def Obligations.StepTicksTheEngine : Prop :=
  ∀ (s : State) (rest : List Event),
    (s.pending = [] → step s = engineTick s) ∧
    (s.pending = .tick :: rest → step s = engineTick { s with pending := rest }) ∧
    (s.busy = false → engineTick s = .next s)

/-- R113, R242, R243: a reserved code presented while idle sets ERR_ILLEGAL and DONE and nothing else; while busy it
sets ERR_BUSY and nothing else. -/
def Obligations.ReservedCodesAreReportedOnly : Prop :=
  ∀ (s : State) (v : Word) (rest : List Event), s.pending = .host (.write 4 0x04 v) :: rest →
    (v.extractLsb' 0 4 = 0xD#4 ∨ v.extractLsb' 0 4 = 0xE#4) →
    step s = .next { s with
      pending := rest
      regs := { s.regs with status :=
        if s.busy then setBit s.regs.status 6 true else setBit (setBit s.regs.status 5 true) 1 true } }

/-- R84, R34, R45: a read returns the register at its offset and changes nothing but `rdata`; CMD and the unmapped
offsets read 0. -/
def Obligations.HostReadHasNoSideEffect : Prop :=
  ∀ (s : State) (rest : List Event) (off : Offset) (v : Word),
    (off, v) ∈ [((0x00 : Offset), s.regs.ctrl), (0x04, 0), (0x08, s.regs.status), (0x0C, s.regs.data),
      (0x10, s.regs.addrLo), (0x14, s.regs.addrHi), (0x18, s.regs.romLo), (0x1C, s.regs.romHi), (0x20, s.regs.raw),
      (0x24, s.regs.tempWhole), (0x28, s.regs.tempFrac), (0x2C, s.regs.convTimeout), (0x30, s.regs.tickdiv),
      (0x34, 0), (0x38, 0), (0x3C, 0)] →
    s.pending = .host (.read 4 off) :: rest →
    step s = .next { s with pending := rest, rdata := v }

/-- R31, R85: while idle a write to an RW-idle register stores the written value in its defined bits; every other
register and the engine are unchanged. -/
def Obligations.IdleWriteStoresDefinedBits : Prop :=
  ∀ (s : State) (rest : List Event) (r : Reg) (off : Offset) (mask v : Word),
    (r, off, mask) ∈ [(Reg.ctrl, (0x00 : Offset), (0x1F : Word)), (.data, 0x0C, 0xFF), (.addrLo, 0x10, 0xFFFFFFFF),
      (.addrHi, 0x14, 0xFFFFFFFF), (.raw, 0x20, 0xFFFF), (.convTimeout, 0x2C, 0xFFFFFFFF), (.tickdiv, 0x30, 0xFFFF)] →
    s.busy = false → s.pending = .host (.write 4 off v) :: rest →
    ∃ t, step s = .next t ∧ t.regs.get r = v &&& mask ∧ (∀ x, x ≠ r → t.regs.get x = s.regs.get x) ∧
      t.engine = s.engine ∧ t.params = s.params ∧ t.rdata = s.rdata ∧ t.pending = rest ∧ t.levels = s.levels ∧
      t.draws = s.draws

/-- R243, R31, R131: while busy a write to an RW-idle register, or to CMD with any code but ABORT's, sets ERR_BUSY and
nothing else: the write is dropped and the running command is unaffected. -/
def Obligations.BusyWriteOnlySetsErrBusy : Prop :=
  ∀ (s : State) (rest : List Event) (off : Offset) (v : Word),
    (off ∈ [(0x00 : Offset), 0x0C, 0x10, 0x14, 0x20, 0x2C, 0x30] ∨ (off = 0x04 ∧ v.extractLsb' 0 4 ≠ 0xF#4)) →
    s.busy = true → s.pending = .host (.write 4 off v) :: rest →
    step s = .next { s with pending := rest, regs := { s.regs with status := setBit s.regs.status 6 true } }

/-- R35, R85: a write to STATUS, busy or not, clears the W1C bits written with 1 and changes nothing else. -/
def Obligations.StatusWriteClearsWrittenOnes : Prop :=
  ∀ (s : State) (rest : List Event) (v : Word), s.pending = .host (.write 4 0x08 v) :: rest →
    ∃ st : Word, step s = .next { s with pending := rest, regs := { s.regs with status := st } } ∧
      ∀ j : Nat, st.getLsbD j = if j ∈ [1, 3, 4, 5, 6, 7] ∧ v.getLsbD j = true then false else s.regs.status.getLsbD j

/-- R31, R45, R85: a write to a read-only register or to an unmapped offset is ignored, busy or not. -/
def Obligations.ReadOnlyAndUnmappedWritesAreIgnored : Prop :=
  ∀ (s : State) (rest : List Event) (off : Offset) (v : Word),
    off ∈ [(0x18 : Offset), 0x1C, 0x24, 0x28, 0x34, 0x38, 0x3C] → s.pending = .host (.write 4 off v) :: rest →
    step s = .next { s with pending := rest }

/-- R82: the model refuses an access that is not 32 bits wide, and a 32-bit access at a misaligned offset, and refuses no
other. That an access which is both narrow and misaligned is refused for its width is the model's choice,
notes/assumptions/15.md. -/
def Obligations.UndefinedAccessesAreRefused : Prop :=
  ∀ (s : State) (rest : List Event) (w : Nat) (off : Offset) (v : Word) (a : HostAccess),
    (a = .read w off ∨ a = .write w off v) → s.pending = .host a :: rest →
    (w ≠ 4 → step s = .refused .accessNot32Bits) ∧
    (w = 4 → off.extractLsb' 0 2 ≠ 0#2 → step s = .refused .accessMisaligned) ∧
    (w = 4 → off.extractLsb' 0 2 = 0#2 → ∃ t, step s = .next t)

/-- R270, R271, R70: a cycle with `rst` = 1 puts every register and all engine state at its reset value, releases the
line, lowers `irq`, commits nothing of a running command, and ignores the host access made in that cycle. -/
def Obligations.ResetCycleRestoresEveryResetValue : Prop :=
  ∀ (s : State) (rest : List Event) (a : Option HostAccess), s.pending = .rst a :: rest →
    ∃ t, step s = .next t ∧
      t.regs = { ctrl := 0, status := 0, data := 0, addrLo := 0, addrHi := 0, romLo := 0, romHi := 0, raw := 0, tempWhole := 0, tempFrac := 0, convTimeout := 0x000B71B0, tickdiv := zext32 s.params.tickdivReset } ∧
      t.engine = Engine.reset ∧ t.engine.drive = false ∧ t.irq = false ∧ t.rdata = 0 ∧
      t.params = s.params ∧ t.pending = rest ∧ t.levels = s.levels ∧ t.draws = s.draws

/-- R70, R272: the values after reset. -/
def Obligations.ResetLeavesTheListedValues : Prop :=
  (∀ r : Reg, r ≠ .convTimeout → r ≠ .tickdiv → State.reset.regs.get r = 0) ∧
  State.reset.regs.convTimeout = 750000 ∧
  State.reset.regs.tickdiv = zext32 Config.tickdivReset ∧ Config.tickdivReset ≠ 0 ∧
  State.reset.engine.op = none ∧ State.reset.engine.seq = .idle ∧ State.reset.engine.slot = none ∧
  State.reset.engine.k = 0 ∧ State.reset.engine.sr = 0 ∧ State.reset.engine.nbit = 0 ∧
  State.reset.engine.nbyte = 0 ∧ State.reset.engine.buf = 0 ∧ State.reset.engine.pres = false ∧
  State.reset.engine.presValid = false ∧ State.reset.engine.pollE = 0 ∧ State.reset.engine.pollHit = false ∧
  State.reset.engine.psc = 0 ∧ State.reset.engine.drive = false ∧ State.reset.irq = false

/-- R252, R119: `clrstat`, one write of ones to STATUS, is the return from an error: it clears DONE and every error bit and
changes nothing else; BUSY and PRESENT keep their values. -/
def Obligations.ClrstatReturnsFromAnError : Prop :=
  ∀ (s : State) (rest : List Event), s.pending = .host clrstat :: rest →
    ∃ st : Word, step s = .next { s with pending := rest, regs := { s.regs with status := st } } ∧
      st.getLsbD 0 = s.regs.status.getLsbD 0 ∧ st.getLsbD 2 = s.regs.status.getLsbD 2 ∧
      (∀ j ∈ [1, 3, 4, 5, 6, 7], st.getLsbD j = false) ∧ ∀ j, 8 ≤ j → st.getLsbD j = s.regs.status.getLsbD j

/-! ### Presentation of commands -/

/-- R131, R132: each of the eleven commands with ticks, presented while idle, is accepted: BUSY set, DONE cleared, the
engine at its first micro-step with the listed fields cleared, and nothing else changed. -/
def Obligations.TickCommandsAreAcceptedWhenIdle : Prop :=
  ∀ (i : Instr) (s : State),
    i ∈ [Instr.reset, .writeBit, .readBit, .writeByte, .readByte, .skipRom, .matchRom, .readRom, .convert, .readScratch, .readTemp] →
    s.busy = false →
    exec i s = .next { s with
      regs := { s.regs with status := setBit (setBit s.regs.status 0 true) 1 false }
      engine := { s.engine with op := some i, seq := .pos 0, psc := 0, slot := none, k := 0, nbit := 0, nbyte := 0, buf := 0, sr := 0, presValid := false, pollE := 0, pollHit := false } }

/-- R141: NOP, code 0x0, presented to a machine at rest sets DONE and changes nothing else; while busy it sets ERR_BUSY
and nothing else. -/
def Obligations.NopSetsDoneAlone : Prop :=
  decode 0x00000000 = .ok .nop ∧
  ∀ s : State,
    (s.busy = false → s.AtRest →
      exec .nop s = .next { s with regs := { s.regs with status := setBit s.regs.status 1 true } }) ∧
    (s.busy = true →
      exec .nop s = .next { s with regs := { s.regs with status := setBit s.regs.status 6 true } })

/-- R210, with R212 and R221: DECODE, code 0xC, presented to a machine at rest writes the reading of RAW under CTRL to
TEMP_WHOLE and TEMP_FRAC, sets DONE, and changes nothing else; while busy it sets ERR_BUSY and nothing else. -/
def Obligations.DecodeWritesTheReadingOfRaw : Prop :=
  decode 0x0000000C = .ok .decode ∧
  (∀ s : State, s.busy = true →
    exec .decode s = .next { s with regs := { s.regs with status := setBit s.regs.status 6 true } }) ∧
  ∀ s : State, s.busy = false → s.AtRest →
    ∃ x : Reading,
      x = (if s.regs.ctrl.getLsbD 1 then
            if s.regs.ctrl.getLsbD 3 then fahrFloor (s.regs.raw.extractLsb' 0 16).toInt
            else fahrTrunc (s.regs.raw.extractLsb' 0 16).toInt
          else
            if s.regs.ctrl.getLsbD 2 then celsiusSext (s.regs.raw.extractLsb' 0 16)
            else celsiusRef (s.regs.raw.extractLsb' 0 16)) ∧
      exec .decode s = .next { s with regs := { s.regs with
        tempWhole := BitVec.ofInt 32 x.whole
        tempFrac := BitVec.ofBool x.neg ++ (BitVec.ofBool x.range ++ (0#14 ++ BitVec.ofNat 16 x.frac))
        status := setBit s.regs.status 1 true } }

/-- R140, R244: ABORT, code 0xF, of a running command releases the line, leaves no slot and no position, clears BUSY, sets DONE
and ERR_ABORTED, and commits nothing; ABORT while idle has no effect. -/
def Obligations.AbortEndsTheRunningCommand : Prop :=
  decode 0x0000000F = .ok .abort ∧ ∀ s : State,
    (s.busy = true → exec .abort s = .next { s with
      regs := { s.regs with status := setBit (setBit (setBit s.regs.status 0 false) 1 true) 7 true }
      engine := { s.engine with drive := false, slot := none, seq := .idle } }) ∧
    (s.busy = false → exec .abort s = .next s)

/-- R131, R243, R210: every command but ABORT presented while busy is dropped and sets ERR_BUSY alone. -/
def Obligations.BusyMachineDropsEveryOtherCommand : Prop :=
  ∀ (i : Instr) (s : State), i ≠ .abort → s.busy = true →
    exec i s = .next { s with regs := { s.regs with status := setBit s.regs.status 6 true } }

/-! ### Slots -/

/-- R135, R136, R137, R96: what OWM drives in each tick of a slot, the tick it samples, and that it never samples a
tick in which it drives low. -/
def Obligations.SlotWavesAreTheSpecified : Prop :=
  ∀ p : Params,
    SlotKind.rst.wave p = List.replicate 480 true ++ List.replicate 480 false ∧
    SlotKind.w1.wave p = true :: List.replicate (59 + p.tRec) false ∧
    SlotKind.w0.wave p = List.replicate 60 true ++ List.replicate p.tRec false ∧
    SlotKind.rd.wave p = true :: List.replicate (59 + p.tRec) false ∧
    (∀ k, (SlotKind.rst.samplesAt k = true ↔ k = 540) ∧ (SlotKind.rd.samplesAt k = true ↔ k = 15) ∧
      SlotKind.w0.samplesAt k = false ∧ SlotKind.w1.samplesAt k = false) ∧
    ∀ (kd : SlotKind) (k : Nat), kd.samplesAt k = true → kd.drivesLow k = false

/-! ### Runs of commands -/

/-- R138, R130, R95: one tick inside a slot of a micro-step other than POLL drives the slot's level for its index, takes
the environment's level exactly in the slot's sample tick, moves the index and changes nothing else. Every tick that
leaves the command running, the first and the last of a slot and those of POLL included, leaves `ow_drive_low` at the
level of the slot for its index (low in the first tick of every slot) and starts the prescaler anew. -/
def Obligations.OneTickDrivesSamplesAndCounts : Prop :=
  (∀ s t : State, engineTick s = .next t → t.busy = true →
    (∀ kd, s.engine.slot = some kd → t.engine.drive = kd.drivesLow s.engine.k) ∧
    (s.engine.slot = none → t.engine.drive = true) ∧ t.engine.psc = 0) ∧
  ∀ (s : State) (m : MicroStep) (kd : SlotKind), s.busy = true → s.currentStep = some m → m ≠ .poll →
    s.engine.slot = some kd → s.engine.k + 1 < kd.length s.params →
    engineTick s = .next { s with
      engine := { s.engine with
        drive := kd.drivesLow s.engine.k
        sampled := if kd.samplesAt s.engine.k then s.levelAt 0 else s.engine.sampled
        k := s.engine.k + 1
        psc := 0 }
      levels := if kd.samplesAt s.engine.k then s.levels.drop 1 else s.levels
      draws := if kd.samplesAt s.engine.k then s.draws + 1 else s.draws }

/-- R142, R135, R47: RESET, code 0x1, runs one reset slot of 960 ticks, samples once, in tick 540, and reports the inverse
of that level in PRESENT. -/
def Obligations.ResetReportsPresence : Prop :=
  decode 0x00000001 = .ok .reset ∧ ∀ s : State, s.busy = false → SamplesInTick .reset 540 s ∧ ∃ t,
    RunsIn .reset 960 s t (SlotKind.rst.wave s.params) ∧
    Ended s t { s.regs with status := withPresence (!s.levelAt 0) s.regs.status } 1

/-- R143, R136: WRITE_BIT, code 0x2, runs one write slot of DATA[0]; no register but STATUS changes. -/
def Obligations.WriteBitSendsDataBitZero : Prop :=
  decode 0x00000002 = .ok .writeBit ∧ ∀ s : State, s.busy = false → ∃ t,
    RunsIn .writeBit (60 + s.params.tRec) s t ((if s.regs.data.getLsbD 0 then SlotKind.w1 else SlotKind.w0).wave s.params) ∧
    Ended s t { s.regs with status := withDone s.regs.status } 0

/-- R144, R137: READ_BIT, code 0x3, runs one read slot, samples in tick 15 and writes the level to DATA, the other bits
0. -/
def Obligations.ReadBitWritesTheSampleToData : Prop :=
  decode 0x00000003 = .ok .readBit ∧ ∀ s : State, s.busy = false → SamplesInTick .readBit 15 s ∧ ∃ t,
    RunsIn .readBit (60 + s.params.tRec) s t (SlotKind.rd.wave s.params) ∧
    Ended s t { s.regs with data := if s.levelAt 0 then 1 else 0, status := withDone s.regs.status } 1

/-- R170, R172, R88: WRITE_BYTE, code 0x4, runs eight write slots, bit 0 of DATA first; DATA is unchanged. -/
def Obligations.WriteByteSendsLeastSignificantBitFirst : Prop :=
  decode 0x00000004 = .ok .writeByte ∧ ∀ s : State, s.busy = false → ∃ t,
    RunsIn .writeByte (8 * (60 + s.params.tRec)) s t
      (slotWaves s.params ((List.range 8).map fun i => if s.regs.data.getLsbD i then SlotKind.w1 else SlotKind.w0)) ∧
    Ended s t { s.regs with status := withDone s.regs.status } 0

/-- R171, R173: READ_BYTE, code 0x5, runs eight read slots and puts the i-th level sampled in DATA[i]. -/
def Obligations.ReadByteAssemblesLeastSignificantBitFirst : Prop :=
  decode 0x00000005 = .ok .readByte ∧ ∀ s : State, s.busy = false → ∃ (t : State) (d : Word),
    RunsIn .readByte (8 * (60 + s.params.tRec)) s t (slotWaves s.params (List.replicate 8 .rd)) ∧
    (∀ j, d.getLsbD j = (decide (j < 8) && s.levelAt j)) ∧
    Ended s t { s.regs with data := d, status := withDone s.regs.status } 8

/-- R174: when the level of read slot i is the one the write slot of x[i] leaves at k = 15, READ_BYTE yields x. -/
def Obligations.WrittenByteReadsBack : Prop :=
  ∀ (s : State) (x : Byte), s.busy = false →
    (∀ i < 8, s.levelAt i = !((if x.getLsbD i then SlotKind.w1 else SlotKind.w0).drivesLow 15)) →
    ∃ t, RunsIn .readByte (8 * (60 + s.params.tRec)) s t (slotWaves s.params (List.replicate 8 .rd)) ∧
      t.regs.data = x.setWidth 32

/-- R181: SKIP_ROM, code 0x6, sends the parameter byte CMD_SKIP_ROM, bit 0 first, and no reset slot; no register but
STATUS changes. -/
def Obligations.SkipRomSendsItsCommandByte : Prop :=
  decode 0x00000006 = .ok .skipRom ∧ ∀ s : State, s.busy = false → ∃ t,
    RunsIn .skipRom (8 * (60 + s.params.tRec)) s t (slotWaves s.params (byteSlots s.params.cmdSkipRom)) ∧
    Ended s t { s.regs with status := withDone s.regs.status } 0

/-- R182, R89, R38: MATCH_ROM, code 0x7, sends CMD_MATCH_ROM and then address bytes 0 to 7, so ADDR[0] goes out first and ADDR[63]
last. -/
def Obligations.MatchRomSendsTheAddressInOrder : Prop :=
  decode 0x00000007 = .ok .matchRom ∧ ∀ s : State, s.busy = false → ∃ t,
    RunsIn .matchRom (9 * (8 * (60 + s.params.tRec))) s t
      (slotWaves s.params (byteSlots s.params.cmdMatchRom ++
        (List.range 64).map fun i => if (s.regs.addrHi ++ s.regs.addrLo).getLsbD i then SlotKind.w1 else SlotKind.w0)) ∧
    Ended s t { s.regs with status := withDone s.regs.status } 0

/-- R183, R39: READ_ROM, code 0x8, sends CMD_READ_ROM, runs 64 read slots, and puts the i-th level sampled in ROM[i]. -/
def Obligations.ReadRomCollectsSixtyFourBits : Prop :=
  decode 0x00000008 = .ok .readRom ∧ ∀ s : State, s.busy = false → ∃ (t : State) (lo hi : Word),
    RunsIn .readRom (9 * (8 * (60 + s.params.tRec))) s t
      (slotWaves s.params (byteSlots s.params.cmdReadRom ++ List.replicate 64 .rd)) ∧
    (∀ j < 64, (hi ++ lo).getLsbD j = s.levelAt j) ∧
    Ended s t { s.regs with romLo := lo, romHi := hi, status := withDone s.regs.status } 64

/-- R191, R240, R245: CONVERT, READ_SCRATCH and READ_TEMP end after the 960 ticks of their reset slot when its sample is
1, with ERR_ABSENT set, PRESENT 0 and DONE set; no other register changes and no addressing slot is sent. -/
def Obligations.AbsenceEndsAConversionCommand : Prop :=
  ∀ (i : Instr) (s : State), i ∈ [Instr.convert, .readScratch, .readTemp] → s.busy = false → s.levelAt 0 = true → ∃ t,
    RunsIn i 960 s t (SlotKind.rst.wave s.params) ∧
    Ended s t { s.regs with status := setBit (withPresence false s.regs.status) 3 true } 1

/-- R195, R193, R190: CONVERT with a device present and the first poll sample of 1 in slot P = q + 1, taken before the
bound, completes after 960 + A + L_BYTE + P * L_SLOT ticks with PRESENT 1. The addressing is the byte CMD_SKIP_ROM when
CTRL[0] = 0, and CMD_MATCH_ROM with the eight bytes of ADDR, byte 0 first, when CTRL[0] = 1. -/
def Obligations.ConvertCompletesWhenThePollReadsOne : Prop :=
  ∀ (s : State) (q : Nat), s.busy = false → s.levelAt 0 = false →
    (∀ j < q, s.levelAt (1 + j) = false) → s.levelAt (1 + q) = true →
    (s.regs.convTimeout.toNat = 0 ∨ q * (60 + s.params.tRec) + 16 ≤ s.regs.convTimeout.toNat) → ∃ t,
    RunsIn .convert (pollStart s.params s.regs + (q + 1) * (60 + s.params.tRec)) s t
      (slotWaves s.params (convertSlots s.params s.regs ++ List.replicate (q + 1) .rd)) ∧
    Ended s t { s.regs with status := withPresence true s.regs.status } (2 + q)

/-- R193, R241, R195, R200, R245: with CONV_TIMEOUT = N not 0 and no poll sample of 1 within the bound, CONVERT and
READ_TEMP end exactly N ticks after the poll began, with ERR_TIMEOUT, PRESENT 1 and DONE; RAW and TEMP_* keep their
values. -/
def Obligations.PollTimesOutExactlyAtTheBound : Prop :=
  ∀ (i : Instr) (s : State) (n : Nat), i ∈ [Instr.convert, .readTemp] → s.busy = false → s.levelAt 0 = false →
    s.regs.convTimeout.toNat = n → n ≠ 0 →
    (∀ j, j * (60 + s.params.tRec) + 16 ≤ n → s.levelAt (1 + j) = false) → ∃ t,
    RunsIn i (pollStart s.params s.regs + n) s t
      (slotWaves s.params (convertSlots s.params s.regs) ++
        (slotWaves s.params (List.replicate (n / (60 + s.params.tRec) + 1) .rd)).take n) ∧
    Ended s t { s.regs with status := setBit (withPresence true s.regs.status) 4 true }
      (1 + (n + (60 + s.params.tRec) - 16) / (60 + s.params.tRec))

/-- R106, R193, R43: with CONV_TIMEOUT = 0 and q poll samples of 0, CONVERT and READ_TEMP are still busy after q poll
slots, whatever q is, with every register unchanged. -/
def Obligations.UnboundedPollKeepsTicking : Prop :=
  ∀ (i : Instr) (s : State) (q : Nat), i ∈ [Instr.convert, .readTemp] → s.busy = false → s.levelAt 0 = false →
    s.regs.convTimeout = 0 → (∀ j < q, s.levelAt (1 + j) = false) → ∃ t,
    RunsIn i (pollStart s.params s.regs + q * (60 + s.params.tRec)) s t
      (slotWaves s.params (convertSlots s.params s.regs ++ List.replicate q .rd)) ∧
    t.busy = true ∧ t.currentStep = some .poll ∧
    t.regs = { s.regs with status := setBit (setBit s.regs.status 0 true) 1 false }

/-- R196, R190, R212: READ_SCRATCH with a device present, addressed by CTRL[0] and ADDR as CONVERT addresses it, completes
after 960 + A + 3 * L_BYTE ticks; the sixteen levels
read become RAW, lowest bit first, and TEMP_WHOLE and TEMP_FRAC its reading under CTRL. -/
def Obligations.ReadScratchReadsAndDecodes : Prop :=
  ∀ s : State, s.busy = false → s.levelAt 0 = false → ∃ (t : State) (raw : BitVec 16),
    RunsIn .readScratch (scratchTicks s.params s.regs) s t (slotWaves s.params (scratchSlots s.params s.regs)) ∧
    (∀ j < 16, raw.getLsbD j = s.levelAt (1 + j)) ∧
    Ended s t { s.regs.withRaw raw with status := withPresence true s.regs.status } 17

/-- R200, R192: READ_TEMP runs phase 1, then phase 2 with its own reset and addressing, then the decode. Its ticks are
those of CONVERT and READ_SCRATCH together. -/
def Obligations.ReadTempRunsBothPhases : Prop :=
  ∀ (s : State) (q : Nat), s.busy = false → s.levelAt 0 = false →
    (∀ j < q, s.levelAt (1 + j) = false) → s.levelAt (1 + q) = true →
    (s.regs.convTimeout.toNat = 0 ∨ q * (60 + s.params.tRec) + 16 ≤ s.regs.convTimeout.toNat) →
    s.levelAt (2 + q) = false → ∃ (t : State) (raw : BitVec 16),
    RunsIn .readTemp (pollStart s.params s.regs + (q + 1) * (60 + s.params.tRec) + scratchTicks s.params s.regs) s t
      (slotWaves s.params (convertSlots s.params s.regs ++ List.replicate (q + 1) .rd ++ scratchSlots s.params s.regs)) ∧
    (∀ j < 16, raw.getLsbD j = s.levelAt (3 + q + j)) ∧
    Ended s t { s.regs.withRaw raw with status := withPresence true s.regs.status } (19 + q)

/-- R200, R191: a device that is gone in phase 2 ends READ_TEMP at the end of the second reset slot with ERR_ABSENT and
PRESENT 0; RAW and TEMP_* keep their values. -/
def Obligations.ReadTempEndsWhenTheDeviceIsGone : Prop :=
  ∀ (s : State) (q : Nat), s.busy = false → s.levelAt 0 = false →
    (∀ j < q, s.levelAt (1 + j) = false) → s.levelAt (1 + q) = true →
    (s.regs.convTimeout.toNat = 0 ∨ q * (60 + s.params.tRec) + 16 ≤ s.regs.convTimeout.toNat) →
    s.levelAt (2 + q) = true → ∃ t,
    RunsIn .readTemp (pollStart s.params s.regs + (q + 1) * (60 + s.params.tRec) + 960) s t
      (slotWaves s.params (convertSlots s.params s.regs ++ List.replicate (q + 1) .rd ++ [.rst])) ∧
    Ended s t { s.regs with status := setBit (withPresence false s.regs.status) 3 true } (3 + q)

/-! ### Rules of the whole machine -/

/-- The invariant holds at reset. -/
def Obligations.ResetMeetsTheInvariant : Prop := State.reset.Inv

/-- R36, R45, R60, R61, R99: every step keeps the invariant: reserved bits read 0, BUSY excludes DONE, the idle engine
is at rest with the line released, and the busy engine stands at a micro-step of its command with its counters in
range. -/
def Obligations.EveryStepKeepsTheInvariant : Prop :=
  ∀ s t : State, s.Inv → step s = .next t → t.Inv

/-- R251, R255, R82: from a good state no step faults, and every event the interface defines has a next state. -/
def Obligations.GoodMachineNeverStops : Prop :=
  ∀ s : State, s.Inv → (∀ r, step s ≠ .fault r) ∧ (s.nextEvent.Defined → ∃ t, step s = .next t)

/-- R31, R33, R87: while a command runs, no step but a reset cycle changes CTRL, ADDR_LO, ADDR_HI, CONV_TIMEOUT or
TICKDIV. -/
def Obligations.OperandsAreFrozenWhileBusy : Prop :=
  ∀ s t : State, s.busy = true → step s = .next t → (∀ a, s.nextEvent ≠ .rst a) →
    t.regs.ctrl = s.regs.ctrl ∧ t.regs.addrLo = s.regs.addrLo ∧ t.regs.addrHi = s.regs.addrHi ∧
    t.regs.convTimeout = s.regs.convTimeout ∧ t.regs.tickdiv = s.regs.tickdiv

/-- R31, R281, R134: a step that leaves a running command running changes no register but STATUS, and of STATUS neither
BUSY nor PRESENT. -/
def Obligations.NothingIsVisibleBeforeCompletion : Prop :=
  ∀ s t : State, s.busy = true → step s = .next t → t.busy = true →
    (∀ r : Reg, r ≠ .status → t.regs.get r = s.regs.get r) ∧ t.present = s.present

/-- R134, R140, R245, R250: the step that ends a running command, by completion, error or ABORT, sets DONE, returns the
engine to IDLE with no slot, releases the line, and raises `irq` exactly when CTRL.IE is 1. -/
def Obligations.EveryEndSetsDoneAndReleasesTheLine : Prop :=
  ∀ s t : State, s.busy = true → step s = .next t → t.busy = false → (∀ a, s.nextEvent ≠ .rst a) →
    t.done = true ∧ t.AtRest ∧ t.irq = s.regs.ctrl.getLsbD 4

/-- R35, R253: an error bit stays set through every step but a reset cycle and a host write to STATUS that writes a 1
to it. -/
def Obligations.ErrorBitsAreSticky : Prop :=
  ∀ (s t : State) (b : Nat), b ∈ [3, 4, 5, 6, 7] → s.regs.status.getLsbD b = true → step s = .next t →
    (∀ a, s.nextEvent ≠ .rst a) → (∀ v, s.nextEvent = .host (.write 4 0x08 v) → v.getLsbD b = false) →
    t.regs.status.getLsbD b = true

/-- R39: a step that changes ROM is a reset cycle or the completion of READ_ROM. -/
def Obligations.OnlyReadRomWritesRom : Prop :=
  ∀ s t : State, step s = .next t → (t.regs.romLo ≠ s.regs.romLo ∨ t.regs.romHi ≠ s.regs.romHi) →
    (∃ a, s.nextEvent = .rst a) ∨ (s.busy = true ∧ s.engine.op = some .readRom ∧ t.busy = false ∧ t.done = true)

/-- R47: a step that changes PRESENT is a reset cycle or ends RESET, CONVERT, READ_SCRATCH or READ_TEMP. -/
def Obligations.OnlyResetSlotCommandsWritePresent : Prop :=
  ∀ s t : State, s.Inv → step s = .next t → t.present ≠ s.present →
    (∃ a, s.nextEvent = .rst a) ∨
    (s.busy = true ∧ t.busy = false ∧
      ∃ i, s.engine.op = some i ∧ i ∈ [Instr.reset, .convert, .readScratch, .readTemp])

/-- R41, R42, R46, R212: a step that changes TEMP_WHOLE or TEMP_FRAC leaves in them the reading of RAW under CTRL,
unless it is a reset cycle. -/
def Obligations.TemperatureRegistersHoldAReading : Prop :=
  ∀ s t : State, step s = .next t →
    (t.regs.tempWhole ≠ s.regs.tempWhole ∨ t.regs.tempFrac ≠ s.regs.tempFrac) →
    (∃ a, s.nextEvent = .rst a) ∨
    (t.regs.tempWhole = t.regs.reading.wholeWord ∧ t.regs.tempFrac = t.regs.reading.fracWord)

/-- R12, R13: no step changes a parameter. -/
def Obligations.ParametersNeverChange : Prop :=
  ∀ s t : State, step s = .next t → t.params = s.params

/-- R130, R44 and the model's choice of notes/assumptions/7.md: from the start of a tick of a running command,
max(TICKDIV, 1) clock cycles do what one engine tick does. -/
def Obligations.ATickLastsTickdivClockCycles : Prop :=
  ∀ (s : State) (rest : List Event), s.busy = true → s.engine.psc = 0 →
    s.pending = List.replicate (max (s.regs.tickdiv.extractLsb' 0 16).toNat 1) .clk ++ rest →
    Host.Core.run core (max (s.regs.tickdiv.extractLsb' 0 16).toNat 1) s = engineTick { s with pending := rest }

/-- R38, R119, R86: `setaddr a` run by an idle machine leaves a in ADDR, address byte k at `a[8k+7 : 8k]`. -/
def Obligations.SetaddrLoadsTheDeviceAddress : Prop :=
  ∀ (s : State) (a : BitVec 64) (rest : List Event), s.busy = false →
    s.pending = (setaddr a).map .host ++ rest →
    ∃ t, Host.Core.run core 2 s = .next t ∧ t.pending = rest ∧ t.regs.addrHi ++ t.regs.addrLo = a ∧
      (∀ k, t.regs.addrByte k = a.extractLsb' (8 * k) 8) ∧ t.busy = false ∧
      (∀ r, r ≠ .addrLo → r ≠ .addrHi → t.regs.get r = s.regs.get r)

/-! ### The temperature decoder -/

/-- R215: the reference Celsius formula: the whole part is raw16[10:4], the fraction 625 times raw16[3:0], NEG is 0 and
RANGE says whether set bits of raw16[15:11] were dropped; the output is raw/16 exactly when RANGE is 0, that is for raw
in 0..2047. -/
def Obligations.CelsiusReferenceFormula : Prop :=
  ∀ r : BitVec 16,
    (celsiusRef r).whole = (r.extractLsb' 4 7).toNat ∧ (celsiusRef r).frac = (r.extractLsb' 0 4).toNat * 625 ∧
    (celsiusRef r).neg = false ∧ ((celsiusRef r).range = true ↔ 2048 ≤ r.toNat) ∧
    (10000 * (celsiusRef r).whole + (celsiusRef r).frac = 625 * r.toInt ↔ (celsiusRef r).range = false) ∧
    ((celsiusRef r).range = false ↔ 0 ≤ r.toInt ∧ r.toInt ≤ 2047)

/-- R216: the sign-extended Celsius reading has the whole part s(raw16[15:4]) and the fraction 625 times raw16[3:0], in
0..9375; it is raw/16 exactly for every raw, NEG is the sign of raw and RANGE is 0. -/
def Obligations.CelsiusSextIsExact : Prop :=
  ∀ r : BitVec 16,
    (celsiusSext r).whole = (r.extractLsb' 4 12).toInt ∧ (celsiusSext r).frac = (r.extractLsb' 0 4).toNat * 625 ∧
    10000 * (celsiusSext r).whole + (celsiusSext r).frac = 625 * r.toInt ∧ (celsiusSext r).frac ≤ 9375 ∧
    ((celsiusSext r).neg = true ↔ r.toInt < 0) ∧ (celsiusSext r).range = false

/-- R218: the truncating Fahrenheit reading denotes t/10 for t = raw + raw/8 + 320, both divisions toward zero: the
magnitude is ten times the whole part's and the digit, the sign is NEG. RANGE is 0 (R212, R42). -/
def Obligations.FahrenheitTruncDenotesTenths : Prop :=
  ∀ raw : Int, ∃ half t : Int,
    (half = raw.tdiv 8 ∧ t = raw + half + 320) ∧
    (fahrTrunc raw).whole = t.tdiv 10 ∧ (fahrTrunc raw).frac ≤ 9 ∧
    ((fahrTrunc raw).neg = true ↔ t < 0) ∧
    (if (fahrTrunc raw).neg then -1 else 1) * (10 * ((fahrTrunc raw).whole.natAbs : Int) + (fahrTrunc raw).frac) = t ∧
    (fahrTrunc raw).range = false

/-- R219: the floor Fahrenheit reading denotes t/10 = whole + digit/10 for t = raw + floor(raw/8) + 320. RANGE is 0
(R212, R42). -/
def Obligations.FahrenheitFloorDenotesTenths : Prop :=
  ∀ raw : Int, ∃ half t : Int,
    (8 * half ≤ raw ∧ raw < 8 * half + 8 ∧ t = raw + half + 320) ∧
    10 * (fahrFloor raw).whole + (fahrFloor raw).frac = t ∧ (fahrFloor raw).frac ≤ 9 ∧
    ((fahrFloor raw).neg = true ↔ t < 0) ∧ (fahrFloor raw).range = false

/-- R219: the two Fahrenheit policies agree for every raw of at least 0 and for every negative raw that is a multiple
of 8 with t at least 0 or a multiple of 10, and nowhere else. -/
def Obligations.FahrenheitPoliciesAgreeWhereStated : Prop :=
  ∀ raw : Int, fahrTrunc raw = fahrFloor raw ↔
    0 ≤ raw ∨ ((8 : Int) ∣ raw ∧ (0 ≤ tenthsTrunc raw ∨ (10 : Int) ∣ tenthsTrunc raw))

/-- R222, R41: the ranges of t, of the whole part and of the fraction over all 65536 raw values, and that TEMP_WHOLE
read as two's complement is the whole part. -/
def Obligations.ReadingsStayInRange : Prop :=
  ∀ r : BitVec 16,
    (-36544 ≤ tenthsTrunc r.toInt ∧ tenthsTrunc r.toInt ≤ 37182) ∧
    (-36544 ≤ tenthsFloor r.toInt ∧ tenthsFloor r.toInt ≤ 37182) ∧
    (0 ≤ (celsiusRef r).whole ∧ (celsiusRef r).whole ≤ 127) ∧
    (-2048 ≤ (celsiusSext r).whole ∧ (celsiusSext r).whole ≤ 2047) ∧
    (-3654 ≤ (fahrTrunc r.toInt).whole ∧ (fahrTrunc r.toInt).whole ≤ 3718) ∧
    (-3655 ≤ (fahrFloor r.toInt).whole ∧ (fahrFloor r.toInt).whole ≤ 3718) ∧
    ((celsiusRef r).frac ≤ 9375 ∧ (celsiusSext r).frac ≤ 9375 ∧ (fahrTrunc r.toInt).frac ≤ 9 ∧ (fahrFloor r.toInt).frac ≤ 9) ∧
    ∀ u c f : Bool, (selectFormula u c f r).wholeWord.toInt = (selectFormula u c f r).whole

/-! ### The interrupt output -/

/-- R250: `irq` is CTRL.IE AND STATUS.DONE in every state. Every completion, success or error, ABORT and a reserved code
included, leaves it at CTRL.IE; writing 1 to STATUS.DONE, accepting a command with ticks, writing CTRL.IE = 0 while idle
and a reset cycle leave it 0; nothing else changes it. -/
def Obligations.InterruptIsIeAndDone : Prop :=
  (∀ u : State, u.irq = (u.regs.ctrl.getLsbD 4 && u.regs.status.getLsbD 1)) ∧
  ∀ s t : State, step s = .next t →
    (s.busy = true → t.busy = false → (∀ a, s.nextEvent ≠ .rst a) → t.irq = s.regs.ctrl.getLsbD 4) ∧
    (∀ v, s.nextEvent = .host (.write 4 0x04 v) → s.busy = false → v.extractLsb' 0 4 ∈ [0x0#4, 0xC, 0xD, 0xE] →
      t.irq = s.regs.ctrl.getLsbD 4) ∧
    (∀ v, s.nextEvent = .host (.write 4 0x04 v) → s.busy = false → 0x1#4 ≤ v.extractLsb' 0 4 →
      v.extractLsb' 0 4 ≤ 0xB#4 → t.irq = false) ∧
    (∀ v, s.nextEvent = .host (.write 4 0x08 v) → v.getLsbD 1 = true → t.irq = false) ∧
    (∀ v, s.nextEvent = .host (.write 4 0x00 v) → s.busy = false →
      t.irq = (v.getLsbD 4 && s.regs.status.getLsbD 1)) ∧
    (∀ a, s.nextEvent = .rst a → t.irq = false) ∧
    (t.irq ≠ s.irq →
      (s.busy = true ∧ t.busy = false) ∨ (∃ a, s.nextEvent = .rst a) ∨
      (∃ v, s.nextEvent = .host (.write 4 0x08 v) ∧ v.getLsbD 1 = true) ∨
      (s.busy = false ∧ ∃ v, s.nextEvent = .host (.write 4 0x04 v) ∧ v.extractLsb' 0 4 ≠ 0xF#4) ∨
      (s.busy = false ∧ ∃ v, s.nextEvent = .host (.write 4 0x00 v)))
end

