-- ==== Sys2Proof/Laws/BitFields.lean ====
section
/-! SUPPORT. Reading a bit after setting one, and the equality of words by their bits. -/

namespace Sys2Proof.Machine

@[simp] theorem getLsbD_setBit {n : Nat} (v : BitVec n) (i j : Nat) (b : Bool) :
    (setBit v i b).getLsbD j = if j = i ∧ i < n then b else v.getLsbD j := by
  unfold setBit
  by_cases hj : j < n
  · by_cases h : j = i
    · subst h
      cases b <;> simp [hj]
    · cases b <;> simp [h, hj]
  · have hb : ∀ w : BitVec n, w.getLsbD j = false := fun w => BitVec.getLsbD_of_ge w j (Nat.le_of_not_lt hj)
    have hn : ¬ (j = i ∧ i < n) := fun e => hj (e.1 ▸ e.2)
    rw [hb, hb, if_neg hn]

@[simp] theorem getElem_setBit {n : Nat} (v : BitVec n) (i j : Nat) (b : Bool) (hj : j < n) :
    (setBit v i b)[j] = if j = i then b else v[j] := by
  have := getLsbD_setBit v i j b
  rw [BitVec.getLsbD_eq_getElem hj, BitVec.getLsbD_eq_getElem hj] at this
  rw [this]
  by_cases h : j = i
  · subst h; simp [hj]
  · simp [h]

/-- Two words with the same bits are equal. -/
theorem word_ext {n : Nat} {v w : BitVec n} (h : ∀ j, v.getLsbD j = w.getLsbD j) : v = w :=
  BitVec.eq_of_getLsbD_eq fun j _ => h j

theorem setBit_same {n : Nat} (v : BitVec n) (i : Nat) (b c : Bool) :
    setBit (setBit v i b) i c = setBit v i c := by
  apply word_ext
  intro j
  simp only [getLsbD_setBit]
  split <;> rfl

theorem setBit_comm {n : Nat} (v : BitVec n) {i j : Nat} (h : i ≠ j) (b c : Bool) :
    setBit (setBit v i b) j c = setBit (setBit v j c) i b := by
  apply word_ext
  intro k
  simp only [getLsbD_setBit]
  by_cases hi : k = i
  · subst hi
    simp [h]
  · simp [hi]

theorem setBit_eq_self {n : Nat} (v : BitVec n) {i : Nat} {b : Bool} (h : v.getLsbD i = b) :
    setBit v i b = v := by
  apply word_ext
  intro j
  simp only [getLsbD_setBit]
  split
  · rename_i hj
    rw [hj.1, h]
  · rfl

end Sys2Proof.Machine
end

