-- ==== Sys2Proof/Laws/State.lean ====
section
/-! SUPPORT. One lemma per part of the state and named update, so that no proof unfolds a record update. -/

namespace Sys2Proof.Machine

variable (s : State)

section SetStatus
variable (i : Nat) (b : Bool)
@[simp] theorem setStatus_status : (s.setStatus i b).regs.status = setBit s.regs.status i b := rfl
@[simp] theorem setStatus_ctrl : (s.setStatus i b).regs.ctrl = s.regs.ctrl := rfl
@[simp] theorem setStatus_data : (s.setStatus i b).regs.data = s.regs.data := rfl
@[simp] theorem setStatus_addrLo : (s.setStatus i b).regs.addrLo = s.regs.addrLo := rfl
@[simp] theorem setStatus_addrHi : (s.setStatus i b).regs.addrHi = s.regs.addrHi := rfl
@[simp] theorem setStatus_romLo : (s.setStatus i b).regs.romLo = s.regs.romLo := rfl
@[simp] theorem setStatus_romHi : (s.setStatus i b).regs.romHi = s.regs.romHi := rfl
@[simp] theorem setStatus_raw : (s.setStatus i b).regs.raw = s.regs.raw := rfl
@[simp] theorem setStatus_tempWhole : (s.setStatus i b).regs.tempWhole = s.regs.tempWhole := rfl
@[simp] theorem setStatus_tempFrac : (s.setStatus i b).regs.tempFrac = s.regs.tempFrac := rfl
@[simp] theorem setStatus_convTimeout : (s.setStatus i b).regs.convTimeout = s.regs.convTimeout := rfl
@[simp] theorem setStatus_tickdiv : (s.setStatus i b).regs.tickdiv = s.regs.tickdiv := rfl
@[simp] theorem setStatus_engine : (s.setStatus i b).engine = s.engine := rfl
@[simp] theorem setStatus_params : (s.setStatus i b).params = s.params := rfl
@[simp] theorem setStatus_rdata : (s.setStatus i b).rdata = s.rdata := rfl
@[simp] theorem setStatus_pending : (s.setStatus i b).pending = s.pending := rfl
@[simp] theorem setStatus_levels : (s.setStatus i b).levels = s.levels := rfl
@[simp] theorem setStatus_draws : (s.setStatus i b).draws = s.draws := rfl
@[simp] theorem setStatus_busy : (s.setStatus i b).busy = if i = bitBusy then b else s.busy := by
  simp [State.busy, eq_comm]
@[simp] theorem setStatus_done : (s.setStatus i b).done = if i = bitDone then b else s.done := by
  simp [State.done, eq_comm]
end SetStatus

section EndCommand
@[simp] theorem endCommand_status : s.endCommand.regs.status = setBit (setBit s.regs.status bitBusy false) bitDone true := rfl
@[simp] theorem endCommand_seq : s.endCommand.engine.seq = .idle := rfl
@[simp] theorem endCommand_drive : s.endCommand.engine.drive = false := rfl
@[simp] theorem endCommand_slot : s.endCommand.engine.slot = s.engine.slot := rfl
@[simp] theorem endCommand_psc : s.endCommand.engine.psc = s.engine.psc := rfl
@[simp] theorem endCommand_pollE : s.endCommand.engine.pollE = s.engine.pollE := rfl
@[simp] theorem endCommand_params : s.endCommand.params = s.params := rfl
@[simp] theorem endCommand_rdata : s.endCommand.rdata = s.rdata := rfl
@[simp] theorem endCommand_pending : s.endCommand.pending = s.pending := rfl
@[simp] theorem endCommand_levels : s.endCommand.levels = s.levels := rfl
@[simp] theorem endCommand_draws : s.endCommand.draws = s.draws := rfl
@[simp] theorem endCommand_busy : s.endCommand.busy = false := by simp [State.endCommand]
@[simp] theorem endCommand_done : s.endCommand.done = true := by simp [State.endCommand]
end EndCommand

section Ends
@[simp] theorem complete_busy (i : Instr) : (s.complete i).busy = false := by simp [State.complete]
@[simp] theorem raise_busy (e : RunError) : (s.raise e).busy = false := by simp [State.raise]
end Ends

section DropSlot
@[simp] theorem dropSlot_regs : s.dropSlot.regs = s.regs := rfl
@[simp] theorem dropSlot_slot : s.dropSlot.engine.slot = none := rfl
@[simp] theorem dropSlot_busy : s.dropSlot.busy = s.busy := rfl
end DropSlot

section DriveSample
variable (b : Bool)
@[simp] theorem driveLine_drive : (s.driveLine b).engine.drive = b := rfl
@[simp] theorem driveLine_regs : (s.driveLine b).regs = s.regs := rfl
@[simp] theorem driveLine_params : (s.driveLine b).params = s.params := rfl
@[simp] theorem driveLine_levels : (s.driveLine b).levels = s.levels := rfl
@[simp] theorem driveLine_draws : (s.driveLine b).draws = s.draws := rfl
@[simp] theorem driveLine_lineLevel : (s.driveLine b).lineLevel = s.lineLevel := rfl
@[simp] theorem sample_sampled : s.sample.engine.sampled = s.lineLevel := rfl
@[simp] theorem sample_regs : s.sample.regs = s.regs := rfl
@[simp] theorem sample_params : s.sample.params = s.params := rfl
@[simp] theorem sample_levels : s.sample.levels = s.levels.tail := rfl
@[simp] theorem sample_draws : s.sample.draws = s.draws + 1 := rfl
end DriveSample

section Accept
variable (i : Instr)
@[simp] theorem accept_status : (s.accept i).regs.status = setBit (setBit s.regs.status bitBusy true) bitDone false := rfl
@[simp] theorem accept_op : (s.accept i).engine.op = some i := rfl
@[simp] theorem accept_seq : (s.accept i).engine.seq = .pos 0 := rfl
@[simp] theorem accept_slot : (s.accept i).engine.slot = none := rfl
@[simp] theorem accept_params : (s.accept i).params = s.params := rfl
@[simp] theorem accept_rdata : (s.accept i).rdata = s.rdata := rfl
@[simp] theorem accept_pending : (s.accept i).pending = s.pending := rfl
@[simp] theorem accept_levels : (s.accept i).levels = s.levels := rfl
@[simp] theorem accept_draws : (s.accept i).draws = s.draws := rfl
@[simp] theorem accept_busy : (s.accept i).busy = true := by simp [State.busy]
@[simp] theorem accept_done : (s.accept i).done = false := by simp [State.done]
end Accept

/-- The engine parts of the state have no influence on BUSY and DONE. -/
@[simp] theorem busy_of_status (e : Engine) (rd : Word) (pe : List Event) (l : List Bool) (d : Nat) (p : Params) :
    (State.mk p s.regs e rd pe l d).busy = s.busy := rfl

/-- A register that is read after a write of it holds the written word; CMD holds none (R34). -/
theorem get_put_same (r : Regs) (v : Word) (x : Reg) (h : x ≠ .cmd) : (r.put v x).get x = v := by
  cases x <;> first | rfl | exact absurd rfl h

/-- A write of one register leaves every other alone. -/
theorem get_put_other (r : Regs) (v : Word) (x y : Reg) (h : x ≠ y) : (r.put v x).get y = r.get y := by
  cases x <;> cases y <;> first | rfl | exact absurd rfl h

end Sys2Proof.Machine
end

