-- ==== Sys2Proof/Laws/Slots.lean ====
section
/-! SUPPORT. What the ticks of one slot do: the state after j of them in closed form, the engine tick inside a slot and at its end, and the run of a whole slot. -/

namespace Sys2Proof.Machine

/-! ### The closed form of a slot under way -/

/-- Whether the sample tick of a slot lies before tick j. -/
def SlotKind.sampledBy (kd : SlotKind) (j : Nat) : Bool :=
  match kd with
  | .rst => decide (540 < j)
  | .w0 => false
  | .w1 => false
  | .rd => decide (15 < j)

theorem sampledBy_zero (kd : SlotKind) : kd.sampledBy 0 = false := by cases kd <;> rfl

theorem sampledBy_succ (kd : SlotKind) (j : Nat) :
    kd.sampledBy (j + 1) = (kd.sampledBy j || kd.samplesAt j) := by
  rw [Bool.eq_iff_iff]
  cases kd <;> simp [SlotKind.sampledBy, SlotKind.samplesAt] <;> omega

theorem not_sampledBy_and_samplesAt {kd : SlotKind} {j : Nat} (h : kd.samplesAt j = true) :
    kd.sampledBy j = false := by
  cases kd <;> simp_all [SlotKind.sampledBy, SlotKind.samplesAt]

/-- The state after j ticks of a slot of micro-step m that began in s with k = 0. -/
def slotAfter (m : MicroStep) (kd : SlotKind) (s : State) (j : Nat) : State :=
  { s with
    engine := { s.engine with
      k := j
      psc := if j = 0 then s.engine.psc else 0
      drive := if j = 0 then s.engine.drive else kd.drivesLow (j - 1)
      sampled := if kd.sampledBy j then s.lineLevel else s.engine.sampled
      pollHit := s.engine.pollHit || (m == .poll && kd.sampledBy j && s.lineLevel)
      pollE := if m = .poll then min (s.engine.pollE + j) (2 ^ 32 - 1) else s.engine.pollE }
    levels := if kd.sampledBy j then s.levels.tail else s.levels
    draws := if kd.sampledBy j then s.draws + 1 else s.draws }

theorem slotAfter_zero {m : MicroStep} {kd : SlotKind} {s : State} (hk : s.engine.k = 0)
    (he : s.engine.pollE < 2 ^ 32) : slotAfter m kd s 0 = s := by
  have h1 : (if m = .poll then min (s.engine.pollE + 0) (2 ^ 32 - 1) else s.engine.pollE) = s.engine.pollE := by
    split <;> omega
  unfold slotAfter
  rw [h1, sampledBy_zero]
  simp [← hk]

/-- One tick inside a slot moves the closed form by one (R138). -/
theorem slotTick_slotAfter (m : MicroStep) (kd : SlotKind) (s : State) (j : Nat) :
    ((slotAfter m kd s j).slotTick m kd).pollCount m = slotAfter m kd s (j + 1) := by
  have hs := sampledBy_succ kd j
  by_cases hj : kd.samplesAt j = true
  · have hb := not_sampledBy_and_samplesAt hj
    have hb' : kd.sampledBy (j + 1) = true := by simp [hs, hj]
    by_cases hm : m = .poll
    · subst hm
      simp [slotAfter, State.slotTick, State.pollCount, State.driveLine, State.sample, State.lineLevel, hj, hb, hb']
      omega
    · simp [slotAfter, State.slotTick, State.pollCount, State.driveLine, State.sample, State.lineLevel, hj, hb, hb', hm]
  · have hj' : kd.samplesAt j = false := by simpa using hj
    have hb' : kd.sampledBy (j + 1) = kd.sampledBy j := by simp [hs, hj']
    by_cases hm : m = .poll
    · subst hm
      simp [slotAfter, State.slotTick, State.pollCount, State.driveLine, hj', hb']
      omega
    · simp [slotAfter, State.slotTick, State.pollCount, State.driveLine, hj', hb', hm]

/-! ### The pin -/

/-- s and t drive the line alike, at the same place of the prescaler. -/
structure SamePin (s t : State) : Prop where
  drive : t.engine.drive = s.engine.drive
  psc : t.engine.psc = s.engine.psc

theorem countBit_pin (s : State) : SamePin s s.countBit := by
  unfold State.countBit; split <;> exact ⟨rfl, rfl⟩

/-- The delivery of a slot's result leaves the line alone (R138). -/
theorem deliver_pin (m : MicroStep) (s : State) : SamePin s (s.deliver m) := by
  cases m
  case wb => exact ⟨(countBit_pin _).drive, (countBit_pin _).psc⟩
  case addrs => exact ⟨(countBit_pin _).drive, (countBit_pin _).psc⟩
  case rb => exact ⟨(countBit_pin _).drive, (countBit_pin _).psc⟩
  all_goals exact ⟨rfl, rfl⟩

/-- The next micro-step begins with the line as it was; a completed command is no longer busy (R134, R138). -/
theorem advance_pin (s : State) : s.advance.busy = true → SamePin s s.advance := by
  unfold State.advance
  split
  · split
    · exact fun _ => ⟨rfl, rfl⟩
    · intro h; simp at h
  · exact fun _ => ⟨rfl, rfl⟩

/-- The end of a slot that leaves the command running leaves the line alone (R138). -/
theorem endSlot_pin (m : MicroStep) (s : State) : (s.endSlot m).busy = true → SamePin s (s.endSlot m) := by
  have hd := deliver_pin m { s with engine := { s.engine with slot := none, k := 0 } }
  unfold State.endSlot
  dsimp only
  split
  · intro h; simp at h
  · split
    · intro h
      have ha := advance_pin _ h
      exact ⟨ha.drive.trans hd.drive, ha.psc.trans hd.psc⟩
    · exact fun _ => ⟨hd.drive, hd.psc⟩

/-- A tick that leaves the command running leaves the pin at the slot's level, the last tick of a slot too (R138). -/
theorem runTick_pin (m : MicroStep) (kd : SlotKind) (s : State) :
    (s.runTick m kd).busy = true →
      (s.runTick m kd).engine.drive = kd.drivesLow s.engine.k ∧ (s.runTick m kd).engine.psc = 0 := by
  have hp : ((s.slotTick m kd).pollCount m).engine.drive = kd.drivesLow s.engine.k ∧
      ((s.slotTick m kd).pollCount m).engine.psc = 0 := by
    unfold State.pollCount State.slotTick
    dsimp only
    split <;> split <;> exact ⟨rfl, rfl⟩
  unfold State.runTick
  dsimp only
  split
  · intro h; simp at h
  · split
    · intro h
      have he := endSlot_pin m _ h
      exact ⟨he.drive.trans hp.1, he.psc.trans hp.2⟩
    · exact fun _ => hp

/-- An engine tick that leaves the command running: the pin shows the tick's level, and the prescaler starts anew
(R130, R138). -/
theorem engineTick_pin {s t : State} (h : engineTick s = .next t) (ht : t.busy = true) :
    t.engine.drive = s.tickLow ∧ t.engine.psc = 0 := by
  unfold engineTick at h
  split at h
  · rename_i hb
    unfold State.tickLow
    rw [if_pos hb]
    split at h
    · cases h
    · rename_i m hm
      dsimp only at h
      split at h
      · cases h
      · rename_i kd hk
        cases h
        dsimp only
        rw [hk]
        exact runTick_pin m kd _ ht
  · rename_i hb
    cases h
    exact absurd ht hb

/-! ### Engine ticks of a slot -/

theorem beginSlot_of_some {m : MicroStep} {s : State} {kd : SlotKind} (h : s.engine.slot = some kd) :
    s.beginSlot m = s := by
  simp [State.beginSlot, h]

@[simp] theorem loadByte_nbyte (x : Byte) (s : State) : (s.loadByte x).engine.nbyte = s.engine.nbyte := by
  unfold State.loadByte; split <;> rfl

/-- Loading an operand touches the shift register alone. -/
theorem loadOperand_eq (m : MicroStep) (s : State) :
    ∃ x, s.loadOperand m = { s with engine := { s.engine with sr := x } } := by
  have hb : ∀ y, ∃ x, s.loadByte y = { s with engine := { s.engine with sr := x } } := by
    intro y
    unfold State.loadByte
    split
    · exact ⟨y, rfl⟩
    · exact ⟨s.engine.sr, rfl⟩
  cases m
  case wb x => exact hb x
  case addrs => exact hb _
  all_goals exact ⟨s.engine.sr, rfl⟩

/-- The start of a slot sets the slot, its index and, for a sending byte, the shift register (R138, R172). -/
theorem beginSlot_of_none {m : MicroStep} {s : State} (h : s.engine.slot = none) :
    ∃ x kd, (s.loadOperand m).engine.sr = x ∧ kd = (s.loadOperand m).nextSlot m ∧
      s.beginSlot m = { s with engine := { s.engine with sr := x, slot := some kd, k := 0 } } := by
  obtain ⟨x, hx⟩ := loadOperand_eq m s
  refine ⟨x, _, by rw [hx], rfl, ?_⟩
  simp only [State.beginSlot, h, hx]

/-- An engine tick in a slot that has begun (R138). -/
theorem engineTick_of_slot {m : MicroStep} {kd : SlotKind} {s : State} (hb : s.busy = true)
    (hm : s.currentStep = some m) (hs : s.engine.slot = some kd) :
    engineTick s = .next (s.runTick m kd) := by
  simp [engineTick, hb, hm, beginSlot_of_some hs, hs]

/-- The start of a slot leaves BUSY and the position alone. -/
theorem beginSlot_keeps (m : MicroStep) (s : State) :
    (s.beginSlot m).regs = s.regs ∧ (s.beginSlot m).busy = s.busy ∧ (s.beginSlot m).params = s.params ∧
      (s.beginSlot m).currentStep = s.currentStep := by
  cases h : s.engine.slot with
  | some kd => simp [beginSlot_of_some h]
  | none =>
    obtain ⟨x, kd, -, -, he⟩ := beginSlot_of_none (m := m) h
    rw [he]
    exact ⟨rfl, rfl, rfl, rfl⟩

/-- A tick from between two slots is a tick of the slot begun (R138). -/
theorem engineTick_beginSlot {m : MicroStep} {s : State} (hb : s.busy = true)
    (hm : s.currentStep = some m) (hs : s.engine.slot = none) :
    engineTick s = engineTick (s.beginSlot m) ∧ s.tickLow = (s.beginSlot m).tickLow := by
  obtain ⟨-, hb', -, hm'⟩ := beginSlot_keeps m s
  obtain ⟨x, kd, -, -, he⟩ := beginSlot_of_none (m := m) hs
  have hs' : (s.beginSlot m).engine.slot = some kd := by rw [he]
  have hi := beginSlot_of_some (m := m) hs'
  constructor
  · simp [engineTick, hb, hm, hb', hm', hi]
  · simp [State.tickLow, hb, hm, hb', hm', hi]

section Slot

variable {m : MicroStep} {kd : SlotKind} {s : State}

/-- Tick j of a slot: the poll's time is up, the slot ends, or it goes on (R138, R193). -/
theorem engineTick_slotAfter {j : Nat} (hb : s.busy = true) (hm : s.currentStep = some m)
    (hs : s.engine.slot = some kd) :
    engineTick (slotAfter m kd s j) = .next (
      if (slotAfter m kd s (j + 1)).pollTimesOut m then (slotAfter m kd s (j + 1)).raise .timeout
      else if j + 1 = kd.length s.params then (slotAfter m kd s (j + 1)).endSlot m
      else slotAfter m kd s (j + 1)) := by
  have h : engineTick (slotAfter m kd s j) = .next ((slotAfter m kd s j).runTick m kd) :=
    engineTick_of_slot hb hm hs
  rw [h]
  unfold State.runTick
  rw [slotTick_slotAfter]
  rfl

theorem tickLow_slotAfter (j : Nat) (hb : s.busy = true) (hm : s.currentStep = some m)
    (hs : s.engine.slot = some kd) : (slotAfter m kd s j).tickLow = kd.drivesLow j := by
  have h1 : (slotAfter m kd s j).busy = true := hb
  have h2 : (slotAfter m kd s j).currentStep = some m := hm
  have h3 : (slotAfter m kd s j).engine.slot = some kd := hs
  simp only [State.tickLow, h1, h2, beginSlot_of_some h3, h3]
  rfl

/-- The first n ticks of a slot that neither ends nor times out in them. -/
theorem runTicks_in_slot (hb : s.busy = true) (hm : s.currentStep = some m) (hs : s.engine.slot = some kd) :
    ∀ n i : Nat, i + n < kd.length s.params →
      (∀ j, i < j → j ≤ i + n → (slotAfter m kd s j).pollTimesOut m = false) →
      runTicks n (slotAfter m kd s i) = .next (slotAfter m kd s (i + n)) ∧
      lineTrace n (slotAfter m kd s i) = (List.range' i n).map kd.drivesLow := by
  intro n
  induction n with
  | zero => intro i _ _; exact ⟨rfl, rfl⟩
  | succ n ih =>
    intro i hl ht
    have h := engineTick_slotAfter (j := i) hb hm hs
    rw [ht (i + 1) (by omega) (by omega), if_neg (by simp), if_neg (by omega)] at h
    obtain ⟨h1, h2⟩ := ih (i + 1) (by omega) (fun j a b => ht j (by omega) (by omega))
    have hi : i + 1 + n = i + (n + 1) := by omega
    rw [hi] at h1
    constructor
    · simp only [runTicks, h, h1]
    · simp only [lineTrace, h, h2, tickLow_slotAfter i hb hm hs, List.range'_succ, List.map_cons]

end Slot

end Sys2Proof.Machine
end

