-- ==== Sys2Proof/Laws/Runs.lean ====
section
/-! SUPPORT. Runs of ticks: their composition, the run of one slot, and the state between two slots of a command. -/

namespace Sys2Proof.Machine

/-! ### Composition -/

theorem runTicks_add (n k : Nat) (a u : State) (h : runTicks n a = .next u) :
    runTicks (n + k) a = runTicks k u := by
  induction n generalizing a with
  | zero => simp only [runTicks] at h; cases h; simp
  | succ n ih =>
    rw [Nat.succ_add]
    simp only [runTicks] at h ⊢
    cases hs : engineTick a with
    | next t => rw [hs] at h; exact ih t h
    | fault r => rw [hs] at h; cases h
    | refused r => rw [hs] at h; cases h

theorem lineTrace_add (n k : Nat) (a u : State) (h : runTicks n a = .next u) :
    lineTrace (n + k) a = lineTrace n a ++ lineTrace k u := by
  induction n generalizing a with
  | zero => simp only [runTicks] at h; cases h; simp [lineTrace]
  | succ n ih =>
    rw [Nat.succ_add]
    simp only [runTicks] at h
    simp only [lineTrace]
    cases hs : engineTick a with
    | next t => rw [hs] at h; simp [ih t h]
    | fault r => rw [hs] at h; cases h
    | refused r => rw [hs] at h; cases h

/-- Tick j of a run is seen on the pin after it, if the command still runs (R138, R259). -/
theorem lineTrace_pin {n j : Nat} {a m : State} (hj : j < n) (h : runTicks (j + 1) a = .next m)
    (hb : m.busy = true) : (lineTrace n a)[j]? = some m.engine.drive := by
  induction j generalizing n a with
  | zero =>
    obtain ⟨k, rfl⟩ : ∃ k, n = k + 1 := ⟨n - 1, by omega⟩
    simp only [runTicks] at h
    simp only [lineTrace, List.getElem?_cons_zero]
    cases hs : engineTick a with
    | next t =>
      rw [hs] at h
      cases h
      rw [(engineTick_pin hs hb).1]
    | fault r => rw [hs] at h; cases h
    | refused r => rw [hs] at h; cases h
  | succ j ih =>
    obtain ⟨k, rfl⟩ : ∃ k, n = k + 1 := ⟨n - 1, by omega⟩
    rw [runTicks] at h
    simp only [lineTrace, List.getElem?_cons_succ]
    cases hs : engineTick a with
    | next t => rw [hs] at h; exact ih (by omega) h
    | fault r => rw [hs] at h; cases h
    | refused r => rw [hs] at h; cases h

/-- A run of ticks; what the pin shows follows from the trace. -/
theorem TicksTo.of {n : Nat} {a t : State} {w : List Bool} (run : runTicks n a = .next t) (trace : lineTrace n a = w)
    (before : ∀ j < n, ∃ m, runTicks j a = .next m ∧ m.busy = true ∧ m.regs = a.regs) : TicksTo n a t w :=
  ⟨run, trace, before, fun _ hj _ h hb => trace ▸ lineTrace_pin hj h hb⟩

theorem TicksTo.zero (a : State) : TicksTo 0 a a [] :=
  .of rfl rfl fun _ h => absurd h (Nat.not_lt_zero _)

theorem TicksTo.trans {n k : Nat} {a u t : State} {w v : List Bool} (h1 : TicksTo n a u w)
    (hr : u.regs = a.regs) (h2 : TicksTo k u t v) : TicksTo (n + k) a t (w ++ v) := by
  refine .of (by rw [runTicks_add n k a u h1.run, h2.run]) (by rw [lineTrace_add n k a u h1.run, h1.trace, h2.trace]) ?_
  intro j hj
  by_cases hn : j < n
  · exact h1.before j hn
  · obtain ⟨m, hm, hb, hg⟩ := h2.before (j - n) (by omega)
    refine ⟨m, ?_, hb, by rw [hg, hr]⟩
    have : n + (j - n) = j := by omega
    rw [← this, runTicks_add n _ a u h1.run, hm]

/-! ### The run of one slot -/

section Slot

variable {m : MicroStep} {s : State} {kd : SlotKind}

/-- The ticks of a slot up to tick n, which leads to t: nothing ends before (R138). -/
theorem slot_ticks {n : Nat} {t : State} (hb : s.busy = true) (hm : s.currentStep = some m)
    (hn : s.engine.slot = none) (hk : (s.beginSlot m).engine.slot = some kd) (he : s.engine.pollE < 2 ^ 32)
    (hl : n < kd.length s.params)
    (ht : ∀ j, 0 < j → j ≤ n → (slotAfter m kd (s.beginSlot m) j).pollTimesOut m = false)
    (hx : engineTick (slotAfter m kd (s.beginSlot m) n) = .next t) :
    TicksTo (n + 1) s t ((List.range (n + 1)).map kd.drivesLow) := by
  obtain ⟨hbr, hbb, hbp, hbm⟩ := beginSlot_keeps m s
  rw [hb] at hbb
  rw [hm] at hbm
  have hk0 : (s.beginSlot m).engine.k = 0 ∧ (s.beginSlot m).engine.pollE < 2 ^ 32 := by
    obtain ⟨x, kd', -, -, e⟩ := beginSlot_of_none (m := m) hn
    rw [e]; exact ⟨rfl, he⟩
  have h0 := slotAfter_zero (m := m) (kd := kd) hk0.1 hk0.2
  have hr := fun j (hj : j ≤ n) => runTicks_in_slot (m := m) hbb hbm hk j 0 (by rw [hbp]; omega)
    (fun i a b => ht i a (by omega))
  simp only [Nat.zero_add, h0] at hr
  obtain ⟨e1, e2⟩ := engineTick_beginSlot hb hm hn
  have hsucc : ∀ j, runTicks (j + 1) s = runTicks (j + 1) (s.beginSlot m) := fun j => by simp only [runTicks, e1]
  have htr : lineTrace (n + 1) s = lineTrace (n + 1) (s.beginSlot m) := by simp only [lineTrace, e1, e2]
  have hlast : runTicks (n + 1) (s.beginSlot m) = .next t := by
    rw [runTicks_add n 1 _ _ (hr n (Nat.le_refl n)).1]
    simp only [runTicks, hx]
  refine .of ?_ ?_ ?_
  · rw [hsucc, hlast]
  · rw [htr, lineTrace_add n 1 _ _ (hr n (Nat.le_refl n)).1, (hr n (Nat.le_refl n)).2]
    simp only [lineTrace, hx, tickLow_slotAfter n hbb hbm hk, List.range_succ, List.map_append, List.map_cons, List.map_nil]
    rw [List.range_eq_range']
  · intro j hj
    cases j with
    | zero => exact ⟨s, rfl, hb, rfl⟩
    | succ j =>
      refine ⟨slotAfter m kd (s.beginSlot m) (j + 1), ?_, hbb, hbr⟩
      rw [hsucc, (hr (j + 1) (by omega)).1]

/-- A whole slot in which the poll does not time out (R138). -/
theorem slot_runs (hb : s.busy = true) (hm : s.currentStep = some m)
    (hn : s.engine.slot = none) (hk : (s.beginSlot m).engine.slot = some kd) (he : s.engine.pollE < 2 ^ 32)
    (ht : ∀ j, 0 < j → j ≤ kd.length s.params → (slotAfter m kd (s.beginSlot m) j).pollTimesOut m = false) :
    TicksTo (kd.length s.params) s ((slotAfter m kd (s.beginSlot m) (kd.length s.params)).endSlot m)
      (kd.wave s.params) := by
  obtain ⟨-, hbb, hbp, hbm⟩ := beginSlot_keeps m s
  have hpos : 0 < kd.length s.params := by cases kd <;> simp [SlotKind.length, slotTicks]
  obtain ⟨n, hn1⟩ : ∃ n, kd.length s.params = n + 1 := ⟨kd.length s.params - 1, by omega⟩
  have hx := engineTick_slotAfter (j := n) (hbb.trans hb) (hbm.trans hm) hk
  rw [hbp, hn1, if_pos rfl, ht (n + 1) (by omega) (by omega), if_neg (by simp)] at hx
  have := slot_ticks hb hm hn hk he (by omega) (fun j a b => ht j a (by omega)) hx
  unfold SlotKind.wave
  rw [hn1]
  exact this

/-- A slot in which the poll times out after tick n (R193). -/
theorem slot_times_out {n : Nat} (hb : s.busy = true) (hm : s.currentStep = some m)
    (hn : s.engine.slot = none) (hk : (s.beginSlot m).engine.slot = some kd) (he : s.engine.pollE < 2 ^ 32)
    (hpos : 0 < n) (hl : n ≤ kd.length s.params)
    (ht : ∀ j, 0 < j → j < n → (slotAfter m kd (s.beginSlot m) j).pollTimesOut m = false)
    (hx : (slotAfter m kd (s.beginSlot m) n).pollTimesOut m = true) :
    TicksTo n s ((slotAfter m kd (s.beginSlot m) n).raise .timeout) ((kd.wave s.params).take n) := by
  obtain ⟨-, hbb, hbp, hbm⟩ := beginSlot_keeps m s
  obtain ⟨k, rfl⟩ : ∃ k, n = k + 1 := ⟨n - 1, by omega⟩
  have he' := engineTick_slotAfter (j := k) (hbb.trans hb) (hbm.trans hm) hk
  rw [hx, if_pos rfl] at he'
  have := slot_ticks hb hm hn hk he (by omega) (fun j a b => ht j a (by omega)) he'
  unfold SlotKind.wave
  rw [← List.map_take, List.take_range, Nat.min_eq_left hl]
  exact this

end Slot

end Sys2Proof.Machine
end

