-- ==== Sys2Proof/Laws/MicroSteps.lean ====
section
/-! SUPPORT. The run of one micro-step: the state between two slots of a command, what a slot of each kind delivers, and the runs of whole bytes. -/

namespace Sys2Proof.Machine

/-! ### Between two slots of a command -/

/-- The data a command carries from slot to slot. -/
structure Progress where
  sr : Byte
  nbit : Nat
  nbyte : Nat
  buf : BitVec 64
  pres : Bool
  presValid : Bool
  pollE : Nat
  pollHit : Bool

/-- s is between two slots of micro-step n of command i, c samples after b, with nothing else of b changed but the
engine. -/
structure Stands (b : State) (i : Instr) (n c : Nat) (e : Progress) (s : State) : Prop where
  regs : s.regs = b.regs
  params : s.params = b.params
  pending : s.pending = b.pending
  rdata : s.rdata = b.rdata
  levels : s.levels = b.levels.drop c
  draws : s.draws = b.draws + c
  op : s.engine.op = some i
  seq : s.engine.seq = .pos n
  slot : s.engine.slot = none
  sr : s.engine.sr = e.sr
  nbit : s.engine.nbit = e.nbit
  nbyte : s.engine.nbyte = e.nbyte
  buf : s.engine.buf = e.buf
  pres : s.engine.pres = e.pres
  presValid : s.engine.presValid = e.presValid
  pollE : s.engine.pollE = e.pollE
  pollHit : s.engine.pollHit = e.pollHit

/-- The data at the start of a command (R132). -/
def Progress.start (pres : Bool) : Progress := ⟨0, 0, 0, 0, pres, false, 0, false⟩

theorem accept_stands (b : State) (i : Instr) :
    Stands (b.accept i) i 0 0 (Progress.start b.engine.pres) (b.accept i) := by
  constructor <;> rfl

section

variable {b s : State} {i : Instr} {n c : Nat} {e : Progress} {m : MicroStep}

theorem Stands.busy (h : Stands b i n c e s) (hb : b.busy = true) : s.busy = true := by
  unfold State.busy at *; rw [h.regs]; exact hb

theorem Stands.current (h : Stands b i n c e s) (hm : (program b.params b.regs i)[n]? = some m) :
    s.currentStep = some m := by
  simp only [State.currentStep, h.op, h.seq, h.params, h.regs, hm]

theorem Stands.lineLevel (h : Stands b i n c e s) : s.lineLevel = b.levelAt c := by
  unfold State.lineLevel State.levelAt
  rw [h.levels, h.draws, List.getD_eq_getElem?_getD, ← List.head?_drop]
  cases hd : b.levels.drop c <;> simp

theorem no_timeout_outside_poll {m : MicroStep} {s : State} (h : m ≠ .poll) : s.pollTimesOut m = false := by
  have : (m == MicroStep.poll) = false := by simpa using h
  simp [State.pollTimesOut, this]

/-! ### One slot -/

/-- One more bit (R172, R173). -/
def Progress.countBit (e : Progress) : Progress :=
  if e.nbit + 1 = 8 then { e with nbit := 0, nbyte := e.nbyte + 1 } else { e with nbit := e.nbit + 1 }

/-- The byte the shift register holds when the next slot of a sending byte starts (R172). -/
def Progress.loaded (x : Byte) (e : Progress) : Byte := if e.nbit = 0 then x else e.sr

/-- A sent bit (R172). -/
def Progress.sent (x : Byte) (e : Progress) : Progress := ({ e with sr := e.loaded x >>> 1 } : Progress).countBit

/-- A received bit (R173). -/
def Progress.got (l : Bool) (e : Progress) : Progress :=
  ({ e with buf := setBit e.buf (8 * e.nbyte + e.nbit) l } : Progress).countBit

/-- A reset slot whose sample was l (R135). -/
def Progress.presence (l : Bool) (e : Progress) : Progress := { e with pres := !l, presValid := true }

/-- The end of a slot after its result is delivered: an error, the next micro-step, or the next slot (R138). -/
def State.afterDelivery (m : MicroStep) (v : State) : State :=
  if v.absenceRaised m then v.raise .absent else if v.stepFinished m then v.advance else v

/-- The number of samples in a slot. -/
def SlotKind.samples : SlotKind → Nat
  | .rst => 1
  | .w0 => 0
  | .w1 => 0
  | .rd => 1

theorem sampledBy_length (kd : SlotKind) (p : Params) : kd.sampledBy (kd.length p) = decide (kd.samples = 1) := by
  cases kd
  · rfl
  · rfl
  · rfl
  · have : 15 < 60 + p.tRec := by omega
    simp [SlotKind.sampledBy, SlotKind.length, SlotKind.samples, slotTicks, this]

/-- A whole slot of a micro-step other than POLL: u is the state whose slot result is delivered (R138). -/
theorem slot_to_delivery (h : Stands b i n c e s) (hb : b.busy = true) (he : e.pollE < 2 ^ 32)
    (hp : (program b.params b.regs i)[n]? = some m) (hnp : m ≠ .poll) :
    ∃ u kd, kd = (s.loadOperand m).nextSlot m ∧
      Stands b i n (c + kd.samples) { e with sr := (s.loadOperand m).engine.sr } u ∧
      (kd.samples = 1 → u.engine.sampled = b.levelAt c) ∧
      TicksTo (kd.length b.params) s ((u.deliver m).afterDelivery m) (kd.wave b.params) := by
  obtain ⟨y, kd, hy, hkd, hbeg⟩ := beginSlot_of_none (m := m) h.slot
  have hrun := slot_runs (kd := kd) (h.busy hb) (h.current hp) h.slot (by rw [hbeg])
    (by rw [h.pollE]; exact he) (fun j _ _ => no_timeout_outside_poll hnp)
  rw [h.params] at hrun
  have hlev : (s.beginSlot m).lineLevel = b.levelAt c := by rw [hbeg]; exact h.lineLevel
  have hnp' : (m == MicroStep.poll) = false := by simpa using hnp
  have hsb := sampledBy_length kd b.params
  refine ⟨_, kd, hkd, ?_, ?_, hrun⟩
  · rw [hy]
    by_cases hk : kd.samples = 1
    · rw [decide_eq_true hk] at hsb
      rw [hk]
      constructor <;> simp [slotAfter, hbeg, hsb, hnp, hnp', h.regs, h.params, h.pending, h.rdata, h.levels, h.draws, h.op, h.seq, h.nbit, h.nbyte, h.buf, h.pres, h.presValid, h.pollE, h.pollHit, Nat.add_assoc]
    · have hk0 : kd.samples = 0 := by cases kd <;> first | rfl | exact absurd rfl hk
      rw [decide_eq_false hk] at hsb
      rw [hk0]
      constructor <;> simp [slotAfter, hbeg, hsb, hnp, hnp', h.regs, h.params, h.pending, h.rdata, h.levels, h.draws, h.op, h.seq, h.nbit, h.nbyte, h.buf, h.pres, h.presValid, h.pollE, h.pollHit]
  · intro hk
    rw [decide_eq_true hk] at hsb
    simp [slotAfter, hsb, hlev]

theorem countBit_stands (h : Stands b i n c e s) : Stands b i n c e.countBit s.countBit := by
  unfold State.countBit Progress.countBit
  rw [h.nbit, h.nbyte]
  split
  · exact ⟨h.regs, h.params, h.pending, h.rdata, h.levels, h.draws, h.op, h.seq, h.slot, h.sr, rfl, rfl, h.buf, h.pres, h.presValid, h.pollE, h.pollHit⟩
  · exact ⟨h.regs, h.params, h.pending, h.rdata, h.levels, h.draws, h.op, h.seq, h.slot, h.sr, rfl, h.nbyte, h.buf, h.pres, h.presValid, h.pollE, h.pollHit⟩

theorem shiftOut_stands (h : Stands b i n c e s) :
    Stands b i n c ({ e with sr := e.sr >>> 1 } : Progress).countBit s.shiftOut := by
  refine countBit_stands (s := { s with engine := { s.engine with sr := s.engine.sr >>> 1 } }) ?_
  exact ⟨h.regs, h.params, h.pending, h.rdata, h.levels, h.draws, h.op, h.seq, h.slot, by simp [h.sr], h.nbit, h.nbyte, h.buf, h.pres, h.presValid, h.pollE, h.pollHit⟩

theorem shiftIn_stands (h : Stands b i n c e s) : Stands b i n c (e.got s.engine.sampled) s.shiftIn := by
  refine countBit_stands (s := { s with engine := { s.engine with buf := setBit s.engine.buf (8 * s.engine.nbyte + s.engine.nbit) s.engine.sampled } }) ?_
  exact ⟨h.regs, h.params, h.pending, h.rdata, h.levels, h.draws, h.op, h.seq, h.slot, h.sr, h.nbit, h.nbyte, by simp [h.buf, h.nbyte, h.nbit], h.pres, h.presValid, h.pollE, h.pollHit⟩

/-- A sending slot: the low bit of the loaded byte goes out (R172). -/
theorem send_slot {x : Byte} (h : Stands b i n c e s) (hb : b.busy = true) (he : e.pollE < 2 ^ 32)
    (hp : (program b.params b.regs i)[n]? = some m)
    (hm : m = .wb x ∨ (m = .addrs ∧ addrsByte b.params b.regs e.nbyte = x)) :
    ∃ v, Stands b i n c (e.sent x) v ∧
      TicksTo (slotTicks b.params) s (if v.stepFinished m then v.advance else v)
        ((writeSlot ((e.loaded x).getLsbD 0)).wave b.params) := by
  have hload : (s.loadOperand m).engine.sr = e.loaded x ∧ (s.loadOperand m).nextSlot m = writeSlot ((e.loaded x).getLsbD 0) := by
    rcases hm with rfl | ⟨rfl, hx⟩
    · simp only [State.loadOperand, State.loadByte, State.nextSlot, Progress.loaded, h.nbit]
      split <;> simp [h.sr]
    · simp only [State.loadOperand, State.loadByte, State.nextSlot, Progress.loaded, h.nbit, h.nbyte, h.params, h.regs, hx]
      split <;> simp [h.sr]
  have hnp : m ≠ .poll := by rcases hm with rfl | ⟨rfl, -⟩ <;> simp
  obtain ⟨u, kd, hkd, hu, -, hrun⟩ := slot_to_delivery h hb he hp hnp
  rw [hload.2] at hkd
  subst hkd
  rw [hload.1] at hu
  have hlen : (writeSlot ((e.loaded x).getLsbD 0)).length b.params = slotTicks b.params ∧ (writeSlot ((e.loaded x).getLsbD 0)).samples = 0 := by
    unfold writeSlot; split <;> exact ⟨rfl, rfl⟩
  rw [hlen.1] at hrun
  rw [hlen.2] at hu
  have hdel : u.deliver m = u.shiftOut ∧ u.shiftOut.absenceRaised m = false := by
    rcases hm with rfl | ⟨rfl, -⟩ <;> exact ⟨rfl, rfl⟩
  rw [hdel.1] at hrun
  unfold State.afterDelivery at hrun
  rw [hdel.2, if_neg (by simp)] at hrun
  exact ⟨u.shiftOut, shiftOut_stands hu, hrun⟩

/-- A receiving slot of RB (R173). -/
theorem receive_slot {l : Nat} (h : Stands b i n c e s) (hb : b.busy = true) (he : e.pollE < 2 ^ 32)
    (hp : (program b.params b.regs i)[n]? = some (.rb l)) :
    ∃ v, Stands b i n (c + 1) (e.got (b.levelAt c)) v ∧
      TicksTo (slotTicks b.params) s (if v.stepFinished (.rb l) then v.advance else v) (SlotKind.rd.wave b.params) := by
  obtain ⟨u, kd, hkd, hu, hl, hrun⟩ := slot_to_delivery h hb he hp (by simp)
  have hkd' : kd = .rd := hkd
  subst hkd'
  have hu' : Stands b i n (c + 1) e u := by
    have : (s.loadOperand (.rb l)).engine.sr = e.sr := h.sr
    rw [this] at hu
    exact hu
  have := shiftIn_stands hu'
  rw [hl rfl] at this
  exact ⟨u.shiftIn, this, hrun⟩

/-- The one slot of WBIT (R133). -/
theorem wbit_slot {x : Bool} (h : Stands b i n c e s) (hb : b.busy = true) (he : e.pollE < 2 ^ 32)
    (hp : (program b.params b.regs i)[n]? = some (.wbit x)) :
    ∃ v, Stands b i n c e v ∧ TicksTo (slotTicks b.params) s v.advance ((writeSlot x).wave b.params) := by
  obtain ⟨u, kd, hkd, hu, -, hrun⟩ := slot_to_delivery h hb he hp (by simp)
  have hkd' : kd = writeSlot x := hkd
  subst hkd'
  have hlen : (writeSlot x).length b.params = slotTicks b.params ∧ (writeSlot x).samples = 0 := by
    unfold writeSlot; split <;> exact ⟨rfl, rfl⟩
  have hsr : (s.loadOperand (.wbit x)).engine.sr = e.sr := h.sr
  rw [hsr, hlen.2] at hu
  rw [hlen.1] at hrun
  exact ⟨u, hu, hrun⟩

/-- The one slot of RBIT (R133). -/
theorem rbit_slot (h : Stands b i n c e s) (hb : b.busy = true) (he : e.pollE < 2 ^ 32)
    (hp : (program b.params b.regs i)[n]? = some .rbit) :
    ∃ v, Stands b i n (c + 1) { e with buf := setBit e.buf 0 (b.levelAt c) } v ∧
      TicksTo (slotTicks b.params) s v.advance (SlotKind.rd.wave b.params) := by
  obtain ⟨u, kd, hkd, hu, hl, hrun⟩ := slot_to_delivery h hb he hp (by simp)
  have hkd' : kd = .rd := hkd
  subst hkd'
  have hsr : (s.loadOperand .rbit).engine.sr = e.sr := h.sr
  rw [hsr] at hu
  refine ⟨_, ?_, hrun⟩
  exact ⟨hu.regs, hu.params, hu.pending, hu.rdata, hu.levels, hu.draws, hu.op, hu.seq, hu.slot, hu.sr, hu.nbit, hu.nbyte, by simp [State.deliver, hu.buf, hl rfl], hu.pres, hu.presValid, hu.pollE, hu.pollHit⟩

theorem takePresence_stands (h : Stands b i n c e s) :
    Stands b i n c (e.presence s.engine.sampled) s.takePresence :=
  ⟨h.regs, h.params, h.pending, h.rdata, h.levels, h.draws, h.op, h.seq, h.slot, h.sr, h.nbit, h.nbyte, h.buf, rfl, rfl, h.pollE, h.pollHit⟩

/-- The one slot of RSTP (R133, R135). -/
theorem rstp_slot (h : Stands b i n c e s) (hb : b.busy = true) (he : e.pollE < 2 ^ 32)
    (hp : (program b.params b.regs i)[n]? = some .rstp) :
    ∃ v, Stands b i n (c + 1) (e.presence (b.levelAt c)) v ∧
      TicksTo 960 s v.advance (SlotKind.rst.wave b.params) := by
  obtain ⟨u, kd, hkd, hu, hl, hrun⟩ := slot_to_delivery h hb he hp (by simp)
  have hkd' : kd = .rst := hkd
  subst hkd'
  have hsr : (s.loadOperand .rstp).engine.sr = e.sr := h.sr
  rw [hsr] at hu
  have := takePresence_stands hu
  rw [hl rfl] at this
  exact ⟨_, this, hrun⟩

/-- The one slot of RSTC: on absence the error end, else the next micro-step (R191). -/
theorem rstc_slot (h : Stands b i n c e s) (hb : b.busy = true) (he : e.pollE < 2 ^ 32)
    (hp : (program b.params b.regs i)[n]? = some .rstc) :
    ∃ v, Stands b i n (c + 1) (e.presence (b.levelAt c)) v ∧
      TicksTo 960 s (if b.levelAt c then v.raise .absent else v.advance) (SlotKind.rst.wave b.params) := by
  obtain ⟨u, kd, hkd, hu, hl, hrun⟩ := slot_to_delivery h hb he hp (by simp)
  have hkd' : kd = .rst := hkd
  subst hkd'
  have hsr : (s.loadOperand .rstc).engine.sr = e.sr := h.sr
  rw [hsr] at hu
  have hv := takePresence_stands hu
  rw [hl rfl] at hv
  refine ⟨_, hv, ?_⟩
  have hd : u.deliver .rstc = u.takePresence := rfl
  rw [hd] at hrun
  have ha : u.takePresence.absenceRaised .rstc = b.levelAt c := by
    simp [State.absenceRaised, hv.pres, Progress.presence]
  unfold State.afterDelivery at hrun
  rw [ha] at hrun
  exact hrun

/-! ### From one micro-step to the next -/

/-- The data at the start of the next micro-step (R60). -/
def Progress.next (e : Progress) : Progress := { e with nbit := 0, nbyte := 0, pollE := 0, pollHit := false }

theorem advance_stands (h : Stands b i n c e s) (hn : n + 1 < (program b.params b.regs i).length) :
    Stands b i (n + 1) c e.next s.advance := by
  have : s.advance = s.enterStep (n + 1) := by
    unfold State.advance
    simp only [h.op, h.seq, h.params, h.regs, if_pos hn]
  rw [this]
  exact ⟨h.regs, h.params, h.pending, h.rdata, h.levels, h.draws, h.op, rfl, h.slot, h.sr, rfl, rfl, h.buf, h.pres, h.presValid, rfl, rfl⟩

theorem advance_completes (h : Stands b i n c e s) (hn : (program b.params b.regs i).length = n + 1) :
    s.advance = s.complete i := by
  unfold State.advance
  simp only [h.op, h.seq, h.params, h.regs, hn, Nat.lt_irrefl, if_false]

/-! ### Bytes -/

/-- A byte micro-step has run its last slot when it has moved all its bytes (R172, R173, R190). -/
theorem stepFinished_bytes (h : Stands b i n c e s)
    (hm : (∃ x, m = .wb x) ∨ m = .addrs ∨ ∃ l, m = .rb l) :
    s.stepFinished m = decide (e.nbyte = m.bytes b.regs) := by
  rcases hm with ⟨x, rfl⟩ | rfl | ⟨l, rfl⟩
  · simp [State.stepFinished, h.nbyte, MicroStep.bytes]
    rfl
  · simp [State.stepFinished, h.nbyte, h.regs, MicroStep.bytes]
    rfl
  · simp [State.stepFinished, h.nbyte, MicroStep.bytes]
    rfl

theorem slotWaves_cons (p : Params) (kd : SlotKind) (l : List SlotKind) :
    slotWaves p (kd :: l) = kd.wave p ++ slotWaves p l := rfl

theorem slotWaves_append (p : Params) (l k : List SlotKind) :
    slotWaves p (l ++ k) = slotWaves p l ++ slotWaves p k := by
  simp [slotWaves]

/-- The last r bits of a sent byte (R172). -/
theorem send_bits {x : Byte} (hb : b.busy = true) (hp : (program b.params b.regs i)[n]? = some m) (r : Nat) :
    ∀ (s : State) (e : Progress), Stands b i n c e s → e.pollE < 2 ^ 32 → e.nbit + (r + 1) = 8 →
      e.loaded x = x >>> e.nbit → e.nbyte < m.bytes b.regs →
      (m = .wb x ∨ (m = .addrs ∧ addrsByte b.params b.regs e.nbyte = x)) →
      ∃ v y, Stands b i n c { e with sr := y, nbit := 0, nbyte := e.nbyte + 1 } v ∧
        TicksTo ((r + 1) * slotTicks b.params) s (if e.nbyte + 1 = m.bytes b.regs then v.advance else v)
          (slotWaves b.params ((List.range' e.nbit (r + 1)).map fun j => writeSlot (x.getLsbD j))) := by
  induction r with
  | zero =>
    intro s e h he hr hl hy hm
    obtain ⟨v, hv, hrun⟩ := send_slot h hb he hp hm
    have h7 : e.nbit + 1 = 8 := by omega
    have hm' : (∃ x, m = .wb x) ∨ m = .addrs ∨ ∃ l, m = .rb l := by
      rcases hm with h | ⟨h, -⟩
      · exact .inl ⟨x, h⟩
      · exact .inr (.inl h)
    have hs : e.sent x = { e with sr := e.loaded x >>> 1, nbit := 0, nbyte := e.nbyte + 1 } := by
      simp [Progress.sent, Progress.countBit, h7]
    rw [hs] at hv
    rw [stepFinished_bytes hv hm', hl] at hrun
    refine ⟨v, _, hv, ?_⟩
    simp only [decide_eq_true_eq] at hrun
    have hw : (x >>> e.nbit).getLsbD 0 = x.getLsbD e.nbit := by simp
    rw [hw] at hrun
    simpa [slotWaves] using hrun
  | succ r ih =>
    intro s e h he hr hl hy hm
    obtain ⟨v, hv, hrun⟩ := send_slot h hb he hp hm
    have h7 : ¬ e.nbit + 1 = 8 := by omega
    have hm' : (∃ x, m = .wb x) ∨ m = .addrs ∨ ∃ l, m = .rb l := by
      rcases hm with h | ⟨h, -⟩
      · exact .inl ⟨x, h⟩
      · exact .inr (.inl h)
    have hs : e.sent x = { e with sr := e.loaded x >>> 1, nbit := e.nbit + 1 } := by
      simp [Progress.sent, Progress.countBit, h7]
    rw [hs] at hv
    rw [stepFinished_bytes hv hm'] at hrun
    rw [if_neg (by simp only [decide_eq_true_eq]; omega)] at hrun
    have hl' : ({ e with sr := e.loaded x >>> 1, nbit := e.nbit + 1 } : Progress).loaded x = x >>> (e.nbit + 1) := by
      have : ({ e with sr := e.loaded x >>> 1, nbit := e.nbit + 1 } : Progress).loaded x = e.loaded x >>> 1 := by
        simp [Progress.loaded]
      rw [this, hl, BitVec.shiftRight_add]
    obtain ⟨v', y, hv', hrun'⟩ := ih v _ hv he (by simp only; omega) hl' hy hm
    refine ⟨v', y, hv', ?_⟩
    have := hrun.trans (hv.regs.trans h.regs.symm) hrun'
    have ht : slotTicks b.params + (r + 1) * slotTicks b.params = (r + 1 + 1) * slotTicks b.params := by ring
    rw [ht] at this
    rw [List.range'_succ, List.map_cons, slotWaves_cons]
    have hw : (x >>> e.nbit).getLsbD 0 = x.getLsbD e.nbit := by simp
    rw [hl, hw] at this
    exact this

/-- One whole byte sent by WB or ADDRS (R172). -/
theorem send_byte {x : Byte} (h : Stands b i n c e s) (hb : b.busy = true) (he : e.pollE < 2 ^ 32)
    (hp : (program b.params b.regs i)[n]? = some m) (h0 : e.nbit = 0) (hy : e.nbyte < m.bytes b.regs)
    (hm : m = .wb x ∨ (m = .addrs ∧ addrsByte b.params b.regs e.nbyte = x)) :
    ∃ v y, Stands b i n c { e with sr := y, nbyte := e.nbyte + 1 } v ∧
      TicksTo (byteTicks b.params) s (if e.nbyte + 1 = m.bytes b.regs then v.advance else v)
        (slotWaves b.params (byteSlots x)) := by
  obtain ⟨v, y, hv, hrun⟩ := send_bits hb hp 7 s e h he (by omega) (by simp [Progress.loaded, h0]) hy hm
  have hsame : ({ e with sr := y, nbit := 0, nbyte := e.nbyte + 1 } : Progress) = { e with sr := y, nbyte := e.nbyte + 1 } := by
    rw [← h0]
  rw [hsame] at hv
  rw [h0] at hrun
  refine ⟨v, y, hv, ?_⟩
  unfold byteTicks byteSlots
  rw [List.range_eq_range']
  exact hrun

/-- The micro-step WB(x) (R172). -/
theorem wb_runs {x : Byte} (h : Stands b i n c e s) (hb : b.busy = true) (he : e.pollE < 2 ^ 32)
    (hp : (program b.params b.regs i)[n]? = some (.wb x)) (h0 : e.nbit = 0) (hy : e.nbyte = 0) :
    ∃ v y, Stands b i n c { e with sr := y, nbyte := 1 } v ∧
      TicksTo (byteTicks b.params) s v.advance (slotWaves b.params (byteSlots x)) := by
  obtain ⟨v, y, hv, hrun⟩ := send_byte h hb he hp h0 (by rw [hy]; exact Nat.one_pos) (.inl rfl)
  rw [hy] at hv hrun
  exact ⟨v, y, hv, hrun⟩

/-- The last r + 1 bytes of the addressing step (R190). -/
theorem addrs_bytes (hb : b.busy = true) (hp : (program b.params b.regs i)[n]? = some .addrs) (r : Nat) :
    ∀ (s : State) (e : Progress), Stands b i n c e s → e.pollE < 2 ^ 32 → e.nbit = 0 →
      e.nbyte + (r + 1) = addrsBytes b.regs →
      ∃ v y, Stands b i n c { e with sr := y, nbyte := addrsBytes b.regs } v ∧
        TicksTo ((r + 1) * byteTicks b.params) s v.advance
          (slotWaves b.params (bytesSlots ((List.range' e.nbyte (r + 1)).map (addrsByte b.params b.regs)))) := by
  induction r with
  | zero =>
    intro s e h he h0 hr
    obtain ⟨v, y, hv, hrun⟩ := send_byte h hb he hp h0 (by simp only [MicroStep.bytes]; omega) (.inr ⟨rfl, rfl⟩)
    rw [hr] at hv
    rw [if_pos (by simp only [MicroStep.bytes]; omega)] at hrun
    refine ⟨v, y, hv, ?_⟩
    simpa [bytesSlots] using hrun
  | succ r ih =>
    intro s e h he h0 hr
    obtain ⟨v, y, hv, hrun⟩ := send_byte h hb he hp h0 (by simp only [MicroStep.bytes]; omega) (.inr ⟨rfl, rfl⟩)
    rw [if_neg (by simp only [MicroStep.bytes]; omega)] at hrun
    obtain ⟨v', y', hv', hrun'⟩ := ih v _ hv he h0 (by simp only; omega)
    refine ⟨v', y', hv', ?_⟩
    have := hrun.trans (hv.regs.trans h.regs.symm) hrun'
    have ht : byteTicks b.params + (r + 1) * byteTicks b.params = (r + 1 + 1) * byteTicks b.params := by ring
    rw [ht, ← slotWaves_append] at this
    rw [List.range'_succ, List.map_cons]
    exact this

/-- The engine's address bytes are those of R190. -/
theorem addrsList_eq (p : Params) (r : Regs) : addrsList p r = (List.range (addrsBytes r)).map (addrsByte p r) := by
  unfold addrsList addrsBytes addrsByte Regs.addrMode
  cases r.ctrl.getLsbD 0 <;> rfl

/-- The engine's address bytes take the ticks of R139. -/
theorem addrsTicks_eq (p : Params) (r : Regs) : addrsTicks p r = addrsBytes r * byteTicks p := by
  unfold addrsTicks addrsBytes Regs.addrMode
  cases r.ctrl.getLsbD 0 <;> simp

/-- The micro-step ADDRS (R190). -/
theorem addrs_runs (h : Stands b i n c e s) (hb : b.busy = true) (he : e.pollE < 2 ^ 32)
    (hp : (program b.params b.regs i)[n]? = some .addrs) (h0 : e.nbit = 0) (hy : e.nbyte = 0) :
    ∃ v y, Stands b i n c { e with sr := y, nbyte := addrsBytes b.regs } v ∧
      TicksTo (addrsTicks b.params b.regs) s v.advance (slotWaves b.params (bytesSlots (addrsList b.params b.regs))) := by
  obtain ⟨r, hr⟩ : ∃ r, addrsBytes b.regs = r + 1 := by
    unfold addrsBytes; split
    · exact ⟨8, rfl⟩
    · exact ⟨0, rfl⟩
  obtain ⟨v, y, hv, hrun⟩ := addrs_bytes hb hp r s e h he h0 (by omega)
  refine ⟨v, y, hv, ?_⟩
  rw [hy, ← hr, ← List.range_eq_range', ← addrsList_eq, ← addrsTicks_eq] at hrun
  exact hrun

/-- The data after q bits of RB (R173). -/
def Progress.reading (e : Progress) (b : State) (c q : Nat) : Progress :=
  { e with nbit := q % 8, nbyte := q / 8, buf := b.received c q }

theorem got_reading (e : Progress) (b : State) (c q : Nat) :
    (e.reading b c q).got (b.levelAt (c + q)) = e.reading b c (q + 1) := by
  have h : 8 * (q / 8) + q % 8 = q := by omega
  by_cases h8 : q % 8 + 1 = 8
  · have h1 : (q + 1) % 8 = 0 := by omega
    have h2 : (q + 1) / 8 = q / 8 + 1 := by omega
    simp [Progress.reading, Progress.got, Progress.countBit, h, h8, h1, h2, State.received]
  · have h1 : (q + 1) % 8 = q % 8 + 1 := by omega
    have h2 : (q + 1) / 8 = q / 8 := by omega
    simp [Progress.reading, Progress.got, Progress.countBit, h, h8, h1, h2, State.received]

/-- The last r + 1 bits of RB(l) (R173). -/
theorem rb_bits {l : Nat} (hb : b.busy = true) (he : e.pollE < 2 ^ 32)
    (hp : (program b.params b.regs i)[n]? = some (.rb l)) (r : Nat) :
    ∀ (s : State) (q : Nat), Stands b i n (c + q) (e.reading b c q) s → q + (r + 1) = 8 * l →
      ∃ v, Stands b i n (c + 8 * l) (e.reading b c (8 * l)) v ∧
        TicksTo ((r + 1) * slotTicks b.params) s v.advance (slotWaves b.params (List.replicate (r + 1) .rd)) := by
  induction r with
  | zero =>
    intro s q h hr
    obtain ⟨v, hv, hrun⟩ := receive_slot h hb he hp
    rw [got_reading, Nat.add_assoc, hr] at hv
    rw [stepFinished_bytes hv (.inr (.inr ⟨l, rfl⟩))] at hrun
    rw [if_pos (by simp [Progress.reading, MicroStep.bytes])] at hrun
    exact ⟨v, hv, by simpa [slotWaves] using hrun⟩
  | succ r ih =>
    intro s q h hr
    obtain ⟨v, hv, hrun⟩ := receive_slot h hb he hp
    rw [got_reading, Nat.add_assoc] at hv
    rw [stepFinished_bytes hv (.inr (.inr ⟨l, rfl⟩))] at hrun
    rw [if_neg (fun hd => by have := of_decide_eq_true hd; simp only [Progress.reading, MicroStep.bytes] at this; omega)] at hrun
    obtain ⟨v', hv', hrun'⟩ := ih v (q + 1) hv (by omega)
    refine ⟨v', hv', ?_⟩
    have := hrun.trans (hv.regs.trans h.regs.symm) hrun'
    have ht : slotTicks b.params + (r + 1) * slotTicks b.params = (r + 1 + 1) * slotTicks b.params := by ring
    rw [ht] at this
    exact this

/-- The micro-step RB(l) (R173). -/
theorem rb_runs {l : Nat} (h : Stands b i n c e s) (hb : b.busy = true) (he : e.pollE < 2 ^ 32)
    (hp : (program b.params b.regs i)[n]? = some (.rb l)) (hl : 0 < l) (h0 : e.nbit = 0) (hy : e.nbyte = 0)
    (hbuf : e.buf = 0) :
    ∃ v, Stands b i n (c + 8 * l) { e with nbyte := l, buf := b.received c (8 * l) } v ∧
      TicksTo (l * byteTicks b.params) s v.advance (slotWaves b.params (List.replicate (8 * l) .rd)) := by
  obtain ⟨r, hr⟩ : ∃ r, 8 * l = r + 1 := ⟨8 * l - 1, by omega⟩
  have hs : e.reading b c 0 = e := by
    unfold Progress.reading State.received
    cases e
    simp_all
  obtain ⟨v, hv, hrun⟩ := rb_bits (c := c) hb he hp r s 0 (by rw [hs]; exact h) (by omega)
  refine ⟨v, ?_, ?_⟩
  · have : e.reading b c (8 * l) = { e with nbyte := l, buf := b.received c (8 * l) } := by
      unfold Progress.reading
      rw [h0]
      simp
    rw [this] at hv
    exact hv
  · rw [← hr] at hrun
    have ht : 8 * l * slotTicks b.params = l * byteTicks b.params := by unfold byteTicks; ring
    rw [ht] at hrun
    exact hrun

end

end Sys2Proof.Machine
end

