-- ==== Sys2Proof/Laws/Poll.lean ====
section
/-! SUPPORT. The completion poll (spec/43_conversion.md R193): one poll slot, a poll that succeeds, one that times out, and one without a bound. -/

namespace Sys2Proof.Machine

/-- The parts of a running command's state that its error end reads, and those it leaves alone (R245). -/
structure Carries (b : State) (c : Nat) (pres : Bool) (s : State) : Prop where
  regs : s.regs = b.regs
  params : s.params = b.params
  pending : s.pending = b.pending
  rdata : s.rdata = b.rdata
  levels : s.levels = b.levels.drop c
  draws : s.draws = b.draws + c
  pres : s.engine.pres = pres
  presValid : s.engine.presValid = true

section

variable {b s : State} {i : Instr} {n c : Nat} {e : Progress}

theorem Stands.carries (h : Stands b i n c e s) (hv : e.presValid = true) : Carries b c e.pres s :=
  ⟨h.regs, h.params, h.pending, h.rdata, h.levels, h.draws, h.pres, h.presValid.trans hv⟩

/-- A poll slot starts as a read slot with the data of the command (R193). -/
theorem poll_begin (h : Stands b i n c e s) :
    s.beginSlot .poll = { s with engine := { s.engine with slot := some .rd, k := 0 } } := by
  simp [State.beginSlot, h.slot, State.loadOperand, State.nextSlot]

/-- `poll_hit` after tick j of a poll slot: set from the sample tick on, when the sample was 1 (R193). -/
theorem poll_hit_after (h : Stands b i n c e s) (hh : e.pollHit = false) (j : Nat) :
    (slotAfter .poll .rd (s.beginSlot .poll) j).engine.pollHit = (decide (15 < j) && b.levelAt c) := by
  have hl : (s.beginSlot .poll).lineLevel = b.levelAt c := by rw [poll_begin h]; exact h.lineLevel
  have hf : (s.beginSlot .poll).engine.pollHit = false := by rw [poll_begin h]; exact h.pollHit.trans hh
  simp [slotAfter, SlotKind.sampledBy, hl, hf]

/-- The timeout test after tick j of a poll slot (R193). -/
theorem poll_test (h : Stands b i n c e s) (hh : e.pollHit = false) (j : Nat) :
    (slotAfter .poll .rd (s.beginSlot .poll) j).pollTimesOut .poll = true ↔
      ¬ (15 < j ∧ b.levelAt c = true) ∧ b.regs.pollBound ≠ 0 ∧ min (e.pollE + j) (2 ^ 32 - 1) = b.regs.pollBound := by
  have h1 : (slotAfter .poll .rd (s.beginSlot .poll) j).regs = b.regs := by rw [poll_begin h]; exact h.regs
  have h2 : (slotAfter .poll .rd (s.beginSlot .poll) j).engine.pollE = min (e.pollE + j) (2 ^ 32 - 1) := by
    rw [poll_begin h]; simp [slotAfter, h.pollE]
  simp only [State.pollTimesOut, poll_hit_after h hh, h1, h2]
  by_cases h15 : 15 < j <;> simp [h15, and_assoc]

theorem pollBound_lt (r : Regs) : r.pollBound < 2 ^ 32 := r.convTimeout.isLt

/-- A poll slot in which the time is not up (R193). -/
theorem poll_slot (h : Stands b i n c e s) (hb : b.busy = true) (he : e.pollE < 2 ^ 32) (hh : e.pollHit = false)
    (hp : (program b.params b.regs i)[n]? = some .poll)
    (hN : b.regs.pollBound = 0 ∨ (b.levelAt c = true ∧ e.pollE + 16 ≤ b.regs.pollBound) ∨
      e.pollE + slotTicks b.params < b.regs.pollBound) :
    ∃ v, Stands b i n (c + 1) { e with pollE := min (e.pollE + slotTicks b.params) (2 ^ 32 - 1), pollHit := b.levelAt c } v ∧
      TicksTo (slotTicks b.params) s (if b.levelAt c then v.advance else v) (SlotKind.rd.wave b.params) := by
  have hlt := pollBound_lt b.regs
  have hrun := slot_runs (kd := .rd) (h.busy hb) (h.current hp) h.slot (by rw [poll_begin h])
    (by rw [h.pollE]; exact he) (fun j h0 hj => by
      have hj' : j ≤ slotTicks b.params := by rw [h.params] at hj; exact hj
      rw [← Bool.not_eq_true, poll_test h hh]
      rintro ⟨h1, h2, h3⟩
      rcases hN with h | ⟨h4, h5⟩ | h
      · exact h2 h
      · have : ¬ 15 < j := fun hq => h1 ⟨hq, h4⟩
        omega
      · omega)
  rw [h.params] at hrun
  have h15 : 15 < slotTicks b.params := by unfold slotTicks; omega
  have hlen : SlotKind.rd.length b.params = slotTicks b.params := rfl
  rw [hlen] at hrun
  have hend : ∀ t : State, t.endSlot .poll =
      if t.engine.pollHit then ({ t with engine := { t.engine with slot := none, k := 0 } } : State).advance
      else { t with engine := { t.engine with slot := none, k := 0 } } := by
    intro t
    rfl
  rw [hend] at hrun
  have hhit : (slotAfter .poll .rd (s.beginSlot .poll) (slotTicks b.params)).engine.pollHit = b.levelAt c := by
    simp [poll_hit_after h hh, h15]
  rw [hhit] at hrun
  refine ⟨_, ?_, hrun⟩
  constructor
  case pollHit => exact hhit
  all_goals simp [slotAfter, SlotKind.sampledBy, h15, poll_begin h, h.regs, h.params, h.pending, h.rdata, h.levels, h.draws, h.op, h.seq, h.sr, h.nbit, h.nbyte, h.buf, h.pres, h.presValid, h.pollE, Nat.add_assoc]

/-- The samples taken in the first t ticks of a poll (R193, R137). -/
def pollSamples (p : Params) (t : Nat) : Nat := (t + slotTicks p - 16) / slotTicks p

/-- The slot in which the time is up (R193). -/
theorem poll_slot_times_out (h : Stands b i n c e s) (hb : b.busy = true) (hh : e.pollHit = false)
    (hv : e.presValid = true)
    (hp : (program b.params b.regs i)[n]? = some .poll)
    (h0 : e.pollE < b.regs.pollBound) (h1 : b.regs.pollBound ≤ e.pollE + slotTicks b.params)
    (hl : e.pollE + 16 ≤ b.regs.pollBound → b.levelAt c = false) :
    ∃ v, Carries b (c + pollSamples b.params (b.regs.pollBound - e.pollE)) e.pres v ∧
      TicksTo (b.regs.pollBound - e.pollE) s (v.raise .timeout)
        ((SlotKind.rd.wave b.params).take (b.regs.pollBound - e.pollE)) := by
  have hlt := pollBound_lt b.regs
  have hL : 60 ≤ slotTicks b.params := by unfold slotTicks; omega
  have hrun := slot_times_out (n := b.regs.pollBound - e.pollE) (kd := .rd) (h.busy hb) (h.current hp) h.slot
    (by rw [poll_begin h]) (by rw [h.pollE]; omega) (by omega)
    (by rw [h.params]; show _ ≤ slotTicks b.params; omega)
    (fun j a1 a2 => by
      rw [← Bool.not_eq_true, poll_test h hh]
      rintro ⟨-, -, h3⟩
      omega)
    (by
      rw [poll_test h hh]
      refine ⟨?_, by omega, by omega⟩
      rintro ⟨a, a'⟩
      rw [hl (by omega)] at a'
      cases a')
  rw [h.params] at hrun
  refine ⟨_, ?_, hrun⟩
  have hs : pollSamples b.params (b.regs.pollBound - e.pollE) = if 15 < b.regs.pollBound - e.pollE then 1 else 0 := by
    unfold pollSamples
    split
    · exact Nat.div_eq_of_lt_le (by omega) (by omega)
    · exact Nat.div_eq_of_lt (by omega)
  rw [hs]
  by_cases h15 : 15 < b.regs.pollBound - e.pollE <;>
    constructor <;> simp [slotAfter, SlotKind.sampledBy, h15, poll_begin h, h.regs, h.params, h.pending, h.rdata, h.levels, h.draws, h.pres, h.presValid, hv, Nat.add_assoc]

/-- A poll whose p-th slot, p = q + 1, is the first to sample 1, in time (R193). -/
theorem poll_succeeds (hb : b.busy = true) (hp : (program b.params b.regs i)[n]? = some .poll) (q : Nat) :
    ∀ (s : State) (c : Nat) (e : Progress), Stands b i n c e s → e.pollE < 2 ^ 32 → e.pollHit = false →
      (∀ j < q, b.levelAt (c + j) = false) → b.levelAt (c + q) = true →
      (b.regs.pollBound = 0 ∨ e.pollE + q * slotTicks b.params + 16 ≤ b.regs.pollBound) →
      ∃ v x, x < 2 ^ 32 ∧ Stands b i n (c + (q + 1)) { e with pollE := x, pollHit := true } v ∧
        TicksTo ((q + 1) * slotTicks b.params) s v.advance (slotWaves b.params (List.replicate (q + 1) .rd)) := by
  induction q with
  | zero =>
    intro s c e h he hh _ h1 hN
    rw [Nat.add_zero] at h1
    obtain ⟨v, hv, hrun⟩ := poll_slot h hb he hh hp (by
      rcases hN with h | h
      · exact .inl h
      · exact .inr (.inl ⟨h1, by omega⟩))
    rw [h1] at hv hrun
    exact ⟨v, _, by omega, hv, by simpa [slotWaves] using hrun⟩
  | succ q ih =>
    intro s c e h he hh h0 h1 hN
    have hm : (q + 1) * slotTicks b.params = q * slotTicks b.params + slotTicks b.params := by ring
    have hc := h0 0 (by omega)
    rw [Nat.add_zero] at hc
    obtain ⟨v, hv, hrun⟩ := poll_slot h hb he hh hp (by
      rcases hN with h | h
      · exact .inl h
      · exact .inr (.inr (by omega)))
    rw [hc] at hv hrun
    obtain ⟨v', x, hx, hv', hrun'⟩ := ih v (c + 1) _ hv (by simp only; omega) rfl
      (fun j hj => by have := h0 (j + 1) (by omega); rwa [Nat.add_assoc, Nat.add_comm 1 j])
      (by rwa [Nat.add_assoc, Nat.add_comm 1 q])
      (by
        rcases hN with h | h
        · exact .inl h
        · exact .inr (by simp only; omega))
    refine ⟨v', x, hx, ?_, ?_⟩
    · have hc2 : c + 1 + (q + 1) = c + (q + 1 + 1) := by omega
      rw [hc2] at hv'
      exact hv'
    · have := hrun.trans (hv.regs.trans h.regs.symm) hrun'
      have ht : slotTicks b.params + (q + 1) * slotTicks b.params = (q + 1 + 1) * slotTicks b.params := by ring
      rw [ht] at this
      exact this

/-- A poll in which no sample before the bound is 1 times out exactly at the bound (R193). -/
theorem poll_times_out (hb : b.busy = true) (hp : (program b.params b.regs i)[n]? = some .poll) (f : Nat) :
    ∀ (s : State) (c t : Nat) (e : Progress), t ≤ f → Stands b i n c e s → e.pollHit = false → e.presValid = true →
      e.pollE + t = b.regs.pollBound → 0 < t →
      (∀ j, j * slotTicks b.params + 16 ≤ t → b.levelAt (c + j) = false) →
      ∃ v, Carries b (c + pollSamples b.params t) e.pres v ∧
        TicksTo t s (v.raise .timeout)
          ((slotWaves b.params (List.replicate (t / slotTicks b.params + 1) .rd)).take t) := by
  have hL : 60 ≤ slotTicks b.params := by unfold slotTicks; omega
  have hlt := pollBound_lt b.regs
  have hwl : (SlotKind.rd.wave b.params).length = slotTicks b.params := by simp [SlotKind.wave, SlotKind.length]
  induction f with
  | zero => intro s c t e hf _ _ _ _ h0; omega
  | succ f ih =>
    intro s c t e hf h hh hv hE h0 hl
    by_cases hle : t ≤ slotTicks b.params
    · have ht : b.regs.pollBound - e.pollE = t := by omega
      obtain ⟨v, hv', hrun⟩ := poll_slot_times_out h hb hh hv hp (by omega) (by omega)
        (fun h16 => by have := hl 0 (by omega); simpa using this)
      rw [ht] at hv' hrun
      refine ⟨v, hv', ?_⟩
      rw [List.replicate_succ, slotWaves_cons, List.take_append_of_le_length (by omega)]
      exact hrun
    · have hc : b.levelAt c = false := by have := hl 0 (by omega); simpa using this
      obtain ⟨v, hs, hrun⟩ := poll_slot h hb (by omega) hh hp (.inr (.inr (by omega)))
      rw [hc] at hs hrun
      obtain ⟨v', hv', hrun'⟩ := ih v (c + 1) (t - slotTicks b.params) _ (by omega) hs rfl hv (by simp only; omega) (by omega)
        (fun j hj => by
          have := hl (j + 1) (by have : (j + 1) * slotTicks b.params = j * slotTicks b.params + slotTicks b.params := by ring
                                 omega)
          rwa [Nat.add_assoc, Nat.add_comm 1 j])
      refine ⟨v', ?_, ?_⟩
      · have hcs : c + 1 + pollSamples b.params (t - slotTicks b.params) = c + pollSamples b.params t := by
          unfold pollSamples
          have h1 : t + slotTicks b.params - 16 = (t - slotTicks b.params + slotTicks b.params - 16) + slotTicks b.params := by omega
          rw [h1, Nat.add_div_right _ (by omega)]
          omega
        rw [hcs] at hv'
        exact hv'
      · have := hrun.trans (hs.regs.trans h.regs.symm) hrun'
        have ht : slotTicks b.params + (t - slotTicks b.params) = t := by omega
        rw [ht] at this
        have hq : t / slotTicks b.params = (t - slotTicks b.params) / slotTicks b.params + 1 := by
          rw [← Nat.add_div_right _ (by omega)]
          congr 1
          omega
        rw [hq, List.replicate_succ, slotWaves_cons, List.take_append, hwl, List.take_of_length_le (by omega)]
        exact this

/-- An unbounded poll whose samples are all 0 goes on (R106, R193). -/
theorem poll_goes_on (hb : b.busy = true) (hp : (program b.params b.regs i)[n]? = some .poll)
    (hN : b.regs.pollBound = 0) (q : Nat) :
    ∀ (s : State) (c : Nat) (e : Progress), Stands b i n c e s → e.pollE < 2 ^ 32 → e.pollHit = false →
      (∀ j < q, b.levelAt (c + j) = false) →
      ∃ v x, x < 2 ^ 32 ∧ Stands b i n (c + q) { e with pollE := x } v ∧
        TicksTo (q * slotTicks b.params) s v (slotWaves b.params (List.replicate q .rd)) := by
  induction q with
  | zero =>
    intro s c e h he _ _
    refine ⟨s, e.pollE, he, h, ?_⟩
    rw [Nat.zero_mul]
    exact TicksTo.zero s
  | succ q ih =>
    intro s c e h he hh h0
    have hc := h0 0 (by omega)
    rw [Nat.add_zero] at hc
    obtain ⟨v, hv, hrun⟩ := poll_slot h hb he hh hp (.inl hN)
    rw [hc] at hv hrun
    obtain ⟨v', x, hx, hv', hrun'⟩ := ih v (c + 1) _ hv (by simp only; omega) rfl
      (fun j hj => by have := h0 (j + 1) (by omega); rwa [Nat.add_assoc, Nat.add_comm 1 j])
    refine ⟨v', x, hx, ?_, ?_⟩
    · have hc2 : c + 1 + q = c + (q + 1) := by omega
      rw [hc2] at hv'
      have : ({ e with pollE := x, pollHit := false } : Progress) = { e with pollE := x } := by rw [← hh]
      rw [← this]
      exact hv'
    · have := hrun.trans (hv.regs.trans h.regs.symm) hrun'
      have ht : slotTicks b.params + q * slotTicks b.params = (q + 1) * slotTicks b.params := by ring
      rw [ht] at this
      exact this

end

end Sys2Proof.Machine
end

