-- ==== Sys2Proof/Laws/Ops.lean ====
section
/-! SUPPORT. What the shared operations leave behind: the end of a command by completion (spec/40_slot_engine.md R134) and by an error (spec/60 R245), and the bits received. -/

namespace Sys2Proof.Machine

/-- STATUS of an idle machine through acceptance and completion (R132, R134). -/
theorem status_done (st : Word) (h : st.getLsbD 0 = false) :
    setBit (setBit (setBit (setBit st bitBusy true) bitDone false) bitBusy false) bitDone true = withDone st := by
  apply word_ext
  intro j
  simp only [getLsbD_setBit, withDone]
  by_cases h1 : j = 1
  · subst h1; simp
  · by_cases h0 : j = 0
    · subst h0; simpa using h.symm
    · simp [h0, h1]

/-- STATUS through acceptance and a completion that commits PRESENT. -/
theorem status_present (st : Word) (p : Bool) (h : st.getLsbD 0 = false) :
    setBit (setBit (setBit (setBit (setBit st bitBusy true) bitDone false) bitPresent p) bitBusy false) bitDone true = withPresence p st := by
  apply word_ext
  intro j
  simp only [getLsbD_setBit, withDone, withPresence]
  by_cases h1 : j = 1
  · subst h1; simp
  · by_cases h0 : j = 0
    · subst h0; simpa using h.symm
    · simp [h0, h1]

/-- STATUS through acceptance and an error end (R245). -/
theorem status_error (st : Word) (p : Bool) (k : Nat) (hk : 3 ≤ k) (h : st.getLsbD 0 = false) :
    setBit (setBit (setBit (setBit (setBit (setBit st bitBusy true) bitDone false) bitPresent p) k true) bitBusy false) bitDone true = setBit (withPresence p st) k true := by
  apply word_ext
  intro j
  simp only [getLsbD_setBit, withDone, withPresence]
  by_cases h1 : j = 1
  · subst h1; have : ¬ 1 = k := by omega
    simp [this]
  · by_cases h0 : j = 0
    · subst h0; have : ¬ 0 = k := by omega
      simp [this]; simpa using h.symm
    · simp [h0, h1]

/-- What a completed command leaves: the registers are its commit's, the engine is at rest (R134). -/
theorem complete_ended {s v : State} {i : Instr} {n c : Nat} {e : Progress} {r : Regs}
    (h : Stands (s.accept i) i n c e v)
    (hr : (v.complete i).regs = r) : Ended s (v.complete i) r c := by
  have hk : ∀ v : State, (v.complete i).levels = v.levels ∧ (v.complete i).draws = v.draws ∧ (v.complete i).params = v.params ∧
     (v.complete i).pending = v.pending ∧ (v.complete i).rdata = v.rdata ∧ (v.complete i).engine = { v.engine with drive := false, seq := .idle } := by
    intro v
    cases i <;> exact ⟨rfl, rfl, rfl, rfl, rfl, rfl⟩
  obtain ⟨h1, h2, h3, h4, h5, h6⟩ := hk v
  refine ⟨hr, ⟨by rw [h6], by rw [h6]; exact h.slot, by rw [h6]⟩, ?_, ?_, ?_, ?_, ?_⟩
  · rw [h1]; exact h.levels
  · rw [h2]; exact h.draws
  · rw [h3]; exact h.params
  · rw [h4]; exact h.pending
  · rw [h5]; exact h.rdata

/-- What an error end leaves: PRESENT, the error bit and DONE, nothing else (R245). -/
theorem raise_ended {s v : State} {i : Instr} {c : Nat} {p : Bool} (e : RunError)
    (h : Carries (s.accept i) c p v) (hb : s.busy = false) :
    Ended s (v.raise e) { s.regs with status := setBit (withPresence p s.regs.status) e.code true } c := by
  have he : v.raise e = ((v.commitPresent.setStatus e.code true).dropSlot.endCommand) := by
    unfold State.raise; rw [h.presValid]; rfl
  have hk : 3 ≤ e.code := by cases e <;> decide
  rw [he]
  refine ⟨?_, ⟨rfl, rfl, rfl⟩, h.levels, h.draws, h.params, h.pending, h.rdata⟩
  have h1 : (((v.commitPresent.setStatus e.code true).dropSlot.endCommand)).regs = { v.regs with status := setBit (setBit (setBit (setBit v.regs.status bitPresent v.engine.pres) e.code true) bitBusy false) bitDone true } := rfl
  rw [h1, h.regs, h.pres]
  rw [accept_status, status_error _ _ _ hk hb]
  rfl

/-- A command with ticks presented while idle is accepted (R131). -/
theorem exec_accepts {i : Instr} {s : State} (hi : (i != .nop && i != .decode && i != .abort) = true)
    (hb : s.busy = false) : exec i s = .next (s.accept i) := by
  cases i <;> first
    | exact absurd hi (by decide)
    | (show Host.Outcome.next (State.presentTicks _ s) = _; simp [State.presentTicks, hb])

theorem start_pollE (p) : (Progress.start p).pollE < 2 ^ 32 := by show 0 < _; decide

/-- The bits received are the levels sampled, in order (R173). -/
theorem received_bit (s : State) (c n j : Nat) (hn : n ≤ 64) :
    (s.received c n).getLsbD j = (decide (j < n) && s.levelAt (c + j)) := by
  induction n with
  | zero => simp [State.received]
  | succ n ih =>
    simp only [State.received, getLsbD_setBit, ih (by omega)]
    by_cases h : j = n
    · subst h; simp [show j < 64 by omega]
    · by_cases h2 : j < n
      · simp [h, h2, show j < n + 1 by omega]
      · simp [h, h2, show ¬ j < n + 1 by omega]

end Sys2Proof.Machine
end

