-- ==== Sys2Proof/Laws/PerInstr.lean ====
section
/-! SUPPORT. The coding of each command (spec/30_encoding.md R110, R111, R113), one lemma per constructor. -/

namespace Sys2Proof.Laws.Coding

/-- The command is well formed, its code is not a reserved one, and every word that carries its code decodes to it,
whatever the ignored bits hold. -/
def Statement (i : Instr) : Prop :=
  i.wf = true ∧ opcode i ≠ 0xD ∧ opcode i ≠ 0xE ∧ ∀ w : Word, w.extractLsb' 0 4 = opcode i → decode w = .ok i

/-- The decoder reads the code field alone (R110). -/
theorem decode_of_code {i : Instr} (h : decodeOp (opcode i) = .ok i) (w : Word) (hw : w.extractLsb' 0 4 = opcode i) :
    decode w = .ok i := by
  unfold decode opField
  rw [hw]
  exact h

theorem nop : Statement .nop := ⟨rfl, by decide, by decide, decode_of_code rfl⟩
theorem reset : Statement .reset := ⟨rfl, by decide, by decide, decode_of_code rfl⟩
theorem writeBit : Statement .writeBit := ⟨rfl, by decide, by decide, decode_of_code rfl⟩
theorem readBit : Statement .readBit := ⟨rfl, by decide, by decide, decode_of_code rfl⟩
theorem writeByte : Statement .writeByte := ⟨rfl, by decide, by decide, decode_of_code rfl⟩
theorem readByte : Statement .readByte := ⟨rfl, by decide, by decide, decode_of_code rfl⟩
theorem skipRom : Statement .skipRom := ⟨rfl, by decide, by decide, decode_of_code rfl⟩
theorem matchRom : Statement .matchRom := ⟨rfl, by decide, by decide, decode_of_code rfl⟩
theorem readRom : Statement .readRom := ⟨rfl, by decide, by decide, decode_of_code rfl⟩
theorem convert : Statement .convert := ⟨rfl, by decide, by decide, decode_of_code rfl⟩
theorem readScratch : Statement .readScratch := ⟨rfl, by decide, by decide, decode_of_code rfl⟩
theorem readTemp : Statement .readTemp := ⟨rfl, by decide, by decide, decode_of_code rfl⟩
theorem decode : Statement .decode := ⟨rfl, by decide, by decide, decode_of_code rfl⟩
theorem abort : Statement .abort := ⟨rfl, by decide, by decide, decode_of_code rfl⟩

end Sys2Proof.Laws.Coding
end

