-- ==== Sys2Proof/Laws/Step.lean ====
section
/-! SUPPORT. Everything a step can do: one tick of a running command (spec/40_slot_engine.md R138), one host access (spec/20_memory.md R84, R85), and the step over both. -/

namespace Sys2Proof.Machine

variable {s t : State}

/-! ### One tick -/

/-- The parts of the state no part of a tick changes but a completion or an error end. -/
structure SameOutside (s u : State) : Prop where
  params : u.params = s.params
  regs : u.regs = s.regs
  rdata : u.rdata = s.rdata
  pending : u.pending = s.pending
  op : u.engine.op = s.engine.op

theorem SameOutside.refl (s : State) : SameOutside s s := ⟨rfl, rfl, rfl, rfl, rfl⟩

theorem SameOutside.trans {u v : State} (h : SameOutside s u) (g : SameOutside u v) : SameOutside s v :=
  ⟨g.params.trans h.params, g.regs.trans h.regs, g.rdata.trans h.rdata, g.pending.trans h.pending, g.op.trans h.op⟩

theorem SameOutside.busy {u : State} (h : SameOutside s u) : u.busy = s.busy := by
  unfold State.busy; rw [h.regs]

theorem loadOperand_same (m : MicroStep) (s : State) : SameOutside s (s.loadOperand m) := by
  cases m <;> simp only [State.loadOperand, State.loadByte] <;> (try split) <;> exact ⟨rfl, rfl, rfl, rfl, rfl⟩

theorem beginSlot_same (m : MicroStep) (s : State) : SameOutside s (s.beginSlot m) := by
  unfold State.beginSlot
  split
  · exact .refl s
  · have h := loadOperand_same m s
    exact ⟨h.params, h.regs, h.rdata, h.pending, h.op⟩

theorem countBit_same (s : State) : SameOutside s s.countBit := by
  unfold State.countBit; split <;> exact ⟨rfl, rfl, rfl, rfl, rfl⟩

theorem deliver_same (m : MicroStep) (s : State) : SameOutside s (s.deliver m) := by
  cases m
  case wb =>
    exact (⟨rfl, rfl, rfl, rfl, rfl⟩ : SameOutside s { s with engine := { s.engine with sr := s.engine.sr >>> 1 } }).trans (countBit_same _)
  case addrs =>
    exact (⟨rfl, rfl, rfl, rfl, rfl⟩ : SameOutside s { s with engine := { s.engine with sr := s.engine.sr >>> 1 } }).trans (countBit_same _)
  case rb =>
    exact (⟨rfl, rfl, rfl, rfl, rfl⟩ : SameOutside s { s with engine := { s.engine with buf := setBit s.engine.buf (8 * s.engine.nbyte + s.engine.nbit) s.engine.sampled } }).trans (countBit_same _)
  all_goals exact ⟨rfl, rfl, rfl, rfl, rfl⟩

theorem slotTick_same (m : MicroStep) (kd : SlotKind) (s : State) : SameOutside s (s.slotTick m kd) := by
  unfold State.slotTick
  dsimp only
  split <;> exact ⟨rfl, rfl, rfl, rfl, rfl⟩

theorem pollCount_same (m : MicroStep) (s : State) : SameOutside s (s.pollCount m) := by
  unfold State.pollCount; split <;> exact ⟨rfl, rfl, rfl, rfl, rfl⟩

@[simp] theorem countBit_slot (s : State) : s.countBit.engine.slot = s.engine.slot := by
  unfold State.countBit; split <;> rfl

@[simp] theorem deliver_slot (m : MicroStep) (s : State) : (s.deliver m).engine.slot = s.engine.slot := by
  cases m <;> simp [State.deliver, State.takePresence, State.shiftOut, State.shiftIn]

/-- What a tick of micro-step m can do to a running command: go on, complete it, or end it in the error of m. -/
inductive TickEnds (m : MicroStep) (s t : State) : Prop where
  /-- The command goes on; no register changes (R31). -/
  | goesOn (h : SameOutside s t)
  /-- The last micro-step ended: u holds what was received, and t is its commit (R134). -/
  | completes (u : State) (i : Instr) (h : SameOutside s u) (op : s.engine.op = some i)
      (slot : u.engine.slot = none) (ends : t = u.complete i)
  /-- ABSENT of RSTC or TIMEOUT of POLL (R191, R193). -/
  | raises (u : State) (e : RunError) (h : SameOutside s u)
      (of : (e = .absent ∧ m = .rstc) ∨ (e = .timeout ∧ m = .poll)) (ends : t = u.raise e)

theorem advance_ends (m : MicroStep) {u : State} (hs : SameOutside s u) (hslot : u.engine.slot = none) :
    TickEnds m s u.advance := by
  unfold State.advance
  split
  · rename_i i n hop hseq
    split
    · exact .goesOn ⟨hs.params, hs.regs, hs.rdata, hs.pending, hs.op⟩
    · exact .completes u i hs (hs.op ▸ hop) hslot rfl
  · exact .goesOn hs

theorem endSlot_ends (m : MicroStep) {u : State} (hs : SameOutside s u) : TickEnds m s (u.endSlot m) := by
  unfold State.endSlot
  have hd : SameOutside s (({ u with engine := { u.engine with slot := none, k := 0 } } : State).deliver m) :=
    (hs.trans (v := { u with engine := { u.engine with slot := none, k := 0 } }) ⟨rfl, rfl, rfl, rfl, rfl⟩).trans (deliver_same m _)
  dsimp only
  split
  · rename_i h
    refine .raises _ .absent hd (.inl ⟨rfl, ?_⟩) rfl
    simp only [State.absenceRaised, Bool.and_eq_true, beq_iff_eq] at h
    exact h.1
  · split
    · exact advance_ends m hd (by simp)
    · exact .goesOn hd

/-- One tick from a state with a slot begun (R138). -/
theorem runTick_ends (m : MicroStep) (kd : SlotKind) (s : State) : TickEnds m s (s.runTick m kd) := by
  unfold State.runTick
  have h := (slotTick_same m kd s).trans (pollCount_same m _)
  dsimp only
  split
  · rename_i hp
    refine .raises _ .timeout h (.inr ⟨rfl, ?_⟩) rfl
    simp only [State.pollTimesOut, Bool.and_eq_true, beq_iff_eq] at hp
    exact hp.1.1.1
  · split
    · exact endSlot_ends m h
    · exact .goesOn h

theorem TickEnds.of_same {m : MicroStep} {u : State} (hs : SameOutside s u) (h : TickEnds m u t) : TickEnds m s t := by
  cases h with
  | goesOn h => exact .goesOn (hs.trans h)
  | completes v i h op slot ends => exact .completes v i (hs.trans h) (hs.op ▸ op) slot ends
  | raises v e h of ends => exact .raises v e (hs.trans h) of ends

/-- Everything an engine tick can do (R130, R138). -/
theorem engineTick_cases (h : engineTick s = .next t) :
    (s.busy = false ∧ t = s) ∨ (s.busy = true ∧ ∃ m, s.currentStep = some m ∧ TickEnds m s t) := by
  unfold engineTick at h
  split at h
  · rename_i hb
    split at h
    · cases h
    · rename_i m hm
      dsimp only at h
      split at h
      · cases h
      · cases h
        exact .inr ⟨hb, m, hm, (runTick_ends m _ _).of_same (beginSlot_same m s)⟩
  · rename_i hb
    cases h
    exact .inl ⟨by simpa using hb, rfl⟩

/-- A tick of a busy engine that stands at a micro-step always has a next state (R138). -/
theorem engineTick_next {m : MicroStep} (h : s.busy = true → s.currentStep = some m) : ∃ t, engineTick s = .next t := by
  unfold engineTick
  by_cases hb : s.busy = true
  · rw [if_pos hb, h hb]
    dsimp only
    cases hs : (s.beginSlot m).engine.slot with
    | none =>
      unfold State.beginSlot at hs
      split at hs
      · rename_i hk; rw [hk] at hs; cases hs
      · cases hs
    | some kd => exact ⟨_, rfl⟩
  · rw [if_neg hb]
    exact ⟨s, rfl⟩

/-- Everything a clock cycle can do (R130). -/
theorem clockEvent_cases (h : clockEvent s = .next t) :
    (s.busy = false ∧ t = s) ∨ (s.busy = true ∧ s.engine.psc + 1 < s.regs.tickCycles ∧ t = { s with engine := { s.engine with psc := s.engine.psc + 1 } }) ∨
    (s.busy = true ∧ engineTick s = .next t) := by
  unfold clockEvent at h
  split at h
  · rename_i hb
    split at h
    · rename_i hc; cases h; exact .inr (.inl ⟨hb, hc, rfl⟩)
    · exact .inr (.inr ⟨hb, h⟩)
  · rename_i hb
    cases h
    exact .inl ⟨by simpa using hb, rfl⟩

/-- A clock cycle before the last of its tick (R130). -/
theorem clockEvent_counts (hb : s.busy = true) (h : s.engine.psc + 1 < s.regs.tickCycles) :
    clockEvent s = .next { s with engine := { s.engine with psc := s.engine.psc + 1 } } := by
  unfold clockEvent; rw [if_pos hb, if_pos h]

/-- The last clock cycle of a tick (R130). -/
theorem clockEvent_ticks (hb : s.busy = true) (h : ¬ s.engine.psc + 1 < s.regs.tickCycles) :
    clockEvent s = engineTick s := by
  unfold clockEvent; rw [if_pos hb, if_neg h]

theorem beginSlot_psc (m : MicroStep) (s : State) (x : Nat) :
    ({ s with engine := { s.engine with psc := x } } : State).beginSlot m =
      { s.beginSlot m with engine := { (s.beginSlot m).engine with psc := x } } := by
  unfold State.beginSlot
  cases h : s.engine.slot with
  | some kd => rfl
  | none =>
    cases m <;> simp only [State.loadOperand, State.loadByte, State.nextSlot] <;> first | rfl | (split <;> rfl)

/-- A tick does not read the prescaler count: it starts it anew (R130). -/
theorem engineTick_psc (hb : s.busy = true) (x : Nat) :
    engineTick { s with engine := { s.engine with psc := x } } = engineTick s := by
  have hb' : ({ s with engine := { s.engine with psc := x } } : State).busy = true := hb
  unfold engineTick
  rw [if_pos hb, if_pos hb']
  have hc : ({ s with engine := { s.engine with psc := x } } : State).currentStep = s.currentStep := rfl
  rw [hc]
  cases s.currentStep with
  | none => rfl
  | some m =>
    dsimp only
    rw [beginSlot_psc]
    have ht : ∀ (kd : SlotKind) (u : State), ({ u with engine := { u.engine with psc := x } } : State).slotTick m kd = u.slotTick m kd := by
      intro kd u
      unfold State.slotTick
      dsimp only
      split <;> rfl
    cases hk : (s.beginSlot m).engine.slot with
    | none => rfl
    | some kd =>
      dsimp only
      unfold State.runTick
      rw [ht]

/-! ### One host access -/

/-- The register at an offset is at its own offset (R30). -/
theorem regAt_off {off : Offset} {r : Reg} (h : regAt off = some r) : off = r.off := by
  unfold regAt at h
  split at h <;> cases h <;> exact BitVec.eq_of_toNat_eq ‹_›

/-- What the host step with access a can do (R84, R85, R131). -/
inductive HostDoes (a : HostAccess) (s t : State) : Prop where
  /-- A read: only `rdata` changes (R84). -/
  | reads (v : Word) (h : t = { s with rdata := v })
  /-- A write with no effect (R45, R31), and ABORT or an acknowledgement of nothing. -/
  | ignored (h : t = s)
  /-- A busy violation (R243). -/
  | violates (busy : s.busy = true) (h : t = s.busyViolation)
  /-- Write ones to clear STATUS (R35). -/
  | clears (v : Word) (acc : a = .write 4 0x08 v) (h : t = s.clearStatus v)
  /-- An idle write to an RW-idle register (R31). -/
  | stores (r : Reg) (v : Word) (idle : s.busy = false) (cls : r.accessClass = .rwIdle)
      (h : t = { s with regs := s.regs.put (v &&& r.mask) r }) (acc : a = .write 4 r.off v)
  /-- A reserved code while idle (R242). -/
  | illegal (idle : s.busy = false) (h : t = s.illegalCommand)
      (acc : ∃ v op, a = .write 4 0x04 v ∧ decode v = .error (.reservedCode op))
  /-- Acceptance (R132). -/
  | accepts (i : Instr) (idle : s.busy = false) (ticks : program s.params s.regs i ≠ []) (h : t = s.accept i)
      (acc : ∃ v, a = .write 4 0x04 v ∧ decode v = .ok i)
  /-- NOP or DECODE while idle (R134). -/
  | atOnce (i : Instr) (idle : s.busy = false) (which : i = .nop ∨ i = .decode) (h : t = (s.setStatus bitDone false).complete i)
      (acc : ∃ v, a = .write 4 0x04 v ∧ decode v = .ok i)
  /-- ABORT while busy (R140). -/
  | aborts (busy : s.busy = true) (h : t = s.abortRunning)

/-- Everything a presentation can do (R131). -/
theorem exec_does {v : Word} {i : Instr} (hv : decode v = .ok i) (s : State) :
    ∃ t, exec i s = .next t ∧ HostDoes (.write 4 0x04 v) s t := by
  by_cases hb : s.busy = true
  · by_cases ha : i = .abort
    · subst ha
      exact ⟨_, by simp only [exec, execAbort]; rfl, by rw [if_pos hb]; exact .aborts hb rfl⟩
    · refine ⟨s.busyViolation, ?_, .violates hb rfl⟩
      cases i <;> first | exact absurd rfl ha | (simp only [exec, execNop, execReset, execWriteBit, execReadBit, execWriteByte, execReadByte, execSkipRom, execMatchRom, execReadRom, execConvert, execReadScratch, execReadTemp, execDecode, State.presentTicks, State.presentNow, hb, if_true])
  · have hb' : s.busy = false := by simpa using hb
    cases i
    case nop => exact ⟨_, rfl, by rw [State.presentNow, if_neg hb]; exact .atOnce .nop hb' (.inl rfl) rfl ⟨v, rfl, hv⟩⟩
    case decode => exact ⟨_, rfl, by rw [State.presentNow, if_neg hb]; exact .atOnce .decode hb' (.inr rfl) rfl ⟨v, rfl, hv⟩⟩
    case abort => exact ⟨_, rfl, by rw [if_neg hb]; exact .ignored rfl⟩
    all_goals exact ⟨_, rfl, by rw [State.presentTicks, if_neg hb]; exact .accepts _ hb' (by simp [program, convertProgram, scratchProgram]) rfl ⟨v, rfl, hv⟩⟩

theorem presentCommand_does (v : Word) (s : State) :
    ∃ t, presentCommand v s = .next t ∧ HostDoes (.write 4 0x04 v) s t := by
  unfold presentCommand
  split
  · exact exec_does ‹_› s
  · rename_i op hv
    refine ⟨_, rfl, ?_⟩
    unfold State.presentReserved
    split
    · exact .violates ‹_› rfl
    · rename_i hb; exact .illegal (by simpa using hb) rfl ⟨v, op, rfl, hv⟩

theorem memWrite_does (off : Offset) (v : Word) (s : State) :
    ∃ t, memWrite off v s = .next t ∧ HostDoes (.write 4 off v) s t := by
  unfold memWrite
  split
  · rename_i r hr
    unfold writeReg
    split
    · rename_i hc
      have : r = .cmd := by cases r <;> first | rfl | cases hc
      rw [regAt_off hr, this]
      exact presentCommand_does v s
    · rename_i hc
      refine ⟨_, rfl, .clears v ?_ rfl⟩
      have : r = .status := by cases r <;> first | rfl | cases hc
      rw [regAt_off hr, this]
      rfl
    · rename_i hc
      refine ⟨_, rfl, ?_⟩
      unfold State.writeIdle
      split
      · exact .violates ‹_› rfl
      · rename_i hb; exact .stores r v (by simpa using hb) hc rfl (by rw [regAt_off hr])
    · exact ⟨_, rfl, .ignored rfl⟩
  · exact ⟨_, rfl, .ignored rfl⟩

/-- A defined host access has a next state (R82). -/
theorem hostStep_does {a : HostAccess} (h : a.wf = true) (s : State) :
    ∃ t, hostStep a s = .next t ∧ HostDoes a s t := by
  simp only [HostAccess.wf, Bool.and_eq_true] at h
  unfold hostStep
  rw [h.1, h.2]
  cases a with
  | read w off => exact ⟨_, rfl, .reads _ rfl⟩
  | write w off v =>
    have hw : w = 4 := by simpa [HostAccess.wideEnough, HostAccess.width] using h.1
    rw [hw]
    exact memWrite_does off v s

/-- A host access that has a next state is a defined one (R82). -/
theorem hostStep_defined {a : HostAccess} (h : hostStep a s = .next t) : a.wf = true := by
  unfold hostStep at h
  simp only [HostAccess.wf, Bool.and_eq_true]
  split at h
  · cases h
  · split at h
    · cases h
    · rename_i h1 h2
      exact ⟨by simpa using h1, by simpa using h2⟩

theorem hostStep_cases {a : HostAccess} (h : hostStep a s = .next t) : HostDoes a s t := by
  obtain ⟨u, hu, hd⟩ := hostStep_does (hostStep_defined h) s
  rw [hu] at h
  cases h
  exact hd

/-- An aligned 32-bit read (R84). -/
theorem hostStep_read {off : Offset} (h : off.extractLsb' 0 2 = 0#2) (s : State) :
    hostStep (.read 4 off) s = .next { s with rdata := memRead s off } := by
  simp [hostStep, HostAccess.wideEnough, HostAccess.width, HostAccess.aligned, HostAccess.off, h]

/-- An aligned 32-bit write (R85). -/
theorem hostStep_write {off : Offset} (h : off.extractLsb' 0 2 = 0#2) (v : Word) (s : State) :
    hostStep (.write 4 off v) s = memWrite off v s := by
  simp [hostStep, HostAccess.wideEnough, HostAccess.width, HostAccess.aligned, HostAccess.off, h]

/-- A write to a mapped register (R85). -/
theorem hostStep_writeReg {off : Offset} {r : Reg} (h : regAt off = some r) (ha : off.extractLsb' 0 2 = 0#2) (v : Word)
    (s : State) : hostStep (.write 4 off v) s = writeReg r v s := by
  rw [hostStep_write ha, memWrite, h]

/-- A write to CMD presents a command (R131). -/
theorem hostStep_cmd (v : Word) (s : State) : hostStep (.write 4 0x04 v) s = presentCommand v s :=
  hostStep_writeReg (r := .cmd) rfl (by decide) v s

/-- A host access never faults (R251). -/
theorem hostStep_no_fault (a : HostAccess) (s : State) (r : Fault) : hostStep a s ≠ .fault r := by
  intro h
  by_cases hw : a.wf = true
  · obtain ⟨t, ht, -⟩ := hostStep_does hw s
    rw [ht] at h; cases h
  · unfold hostStep at h
    simp only [HostAccess.wf, Bool.and_eq_true, not_and] at hw
    split at h
    · cases h
    · split at h
      · cases h
      · rename_i h1 h2
        exact hw (by simpa using h1) (by simpa using h2)

/-! ### The step -/

/-- The machine with the event of the coming step taken off the order. -/
def State.taken (s : State) : State := { s with pending := s.pending.tail }

@[simp] theorem taken_regs (s : State) : s.taken.regs = s.regs := rfl
@[simp] theorem taken_engine (s : State) : s.taken.engine = s.engine := rfl
@[simp] theorem taken_params (s : State) : s.taken.params = s.params := rfl
@[simp] theorem taken_busy (s : State) : s.taken.busy = s.busy := rfl
@[simp] theorem taken_currentStep (s : State) : s.taken.currentStep = s.currentStep := rfl

/-- A step runs the next event, a tick when none is announced. -/
theorem step_eq (s : State) : step s = runEvent s.nextEvent s.taken := by
  unfold step State.nextEvent State.taken
  cases h : s.pending with
  | nil =>
    simp only [List.headD_nil, List.tail_nil]
    have : s = { s with pending := [] } := by rw [← h]
    rw [← this]
  | cons e rest => rfl

/-- A step with an announced event. -/
theorem step_cons {e : Event} {rest : List Event} (h : s.pending = e :: rest) :
    step s = runEvent e { s with pending := rest } := by
  unfold step; rw [h]

/-- A run goes on from the next state of its first step. -/
theorem run_next (k : Nat) (h : step s = .next t) : Host.Core.run core (k + 1) s = Host.Core.run core k t := by
  simp only [Host.Core.run, show core.step s = .next t from h]

/-- Everything a step can do: a reset cycle, a host step, a clock cycle inside a tick, nothing, or a tick. -/
theorem step_cases (h : step s = .next t) :
    (∃ a, s.nextEvent = .rst a ∧ t = s.taken.resetCycle) ∨
    (∃ a, s.nextEvent = .host a ∧ HostDoes a s.taken t) ∨
    (s.busy = false ∧ t = s.taken) ∨
    (s.busy = true ∧ s.engine.psc + 1 < s.regs.tickCycles ∧ t = { s.taken with engine := { s.engine with psc := s.engine.psc + 1 } }) ∨
    (s.busy = true ∧ ∃ m, s.currentStep = some m ∧ TickEnds m s.taken t) := by
  rw [step_eq] at h
  cases he : s.nextEvent with
  | host a =>
    rw [he] at h
    exact .inr (.inl ⟨a, rfl, hostStep_cases h⟩)
  | tick =>
    rw [he] at h
    rcases engineTick_cases h with ⟨hb, rfl⟩ | h
    · exact .inr (.inr (.inl ⟨hb, rfl⟩))
    · exact .inr (.inr (.inr (.inr h)))
  | clk =>
    rw [he] at h
    rcases clockEvent_cases h with ⟨hb, rfl⟩ | ⟨hb, hc, rfl⟩ | ⟨hb, ht⟩
    · exact .inr (.inr (.inl ⟨hb, rfl⟩))
    · exact .inr (.inr (.inr (.inl ⟨hb, hc, rfl⟩)))
    · rcases engineTick_cases ht with ⟨hb', -⟩ | h
      · rw [hb'] at hb
        cases hb
      · exact .inr (.inr (.inr (.inr h)))
  | rst a =>
    rw [he] at h
    cases h
    exact .inl ⟨a, rfl, rfl⟩

end Sys2Proof.Machine
end

