-- ==== Sys2Proof/Tests/Slice0.lean ====
section
/-! SUPPORT. Tests of decoding, of the access checks and of single steps, with expected values from spec/95_test_vectors.md, and for every statement with hypotheses a state that meets them. -/

namespace Sys2Proof.Tests

open Sys2Proof.Machine

/-! ### Small states -/

/-- The parameters of spec/95 section 0, with TICKDIV_RESET 16. -/
def params0 : Params := { Config.params with tickdivReset := 16 }

/-- The reset state of spec/95, with these events and levels to come. -/
def idle (pending : List Event) (levels : List Bool) : State where
  params := params0
  regs := Regs.reset params0
  engine := Engine.reset
  rdata := 0
  pending := pending
  levels := levels
  draws := 0

/-- The idle state with another STATUS. -/
def withStatus (st : Word) (s : State) : State := { s with regs := { s.regs with status := st } }

/-- A machine that runs command i, with STATUS = BUSY, and this engine. -/
def running (i : Instr) (n : Nat) (e : Engine) (pending : List Event) (levels : List Bool) : State :=
  let s := withStatus 1 (idle pending levels)
  { s with engine := { e with op := some i, seq := .pos n } }

/-- The engine before tick k of a slot, with the level last sampled. -/
def inSlot (kd : SlotKind) (k : Nat) (sampled : Bool) : Engine :=
  { Engine.reset with slot := some kd, k := k, sampled := sampled, drive := kd.drivesLow (k - 1) }

/-- The next state, or the state itself where there is none. -/
def orSelf (s : State) (o : Host.Outcome State Fault Refusal) : State :=
  match o with
  | .next t => t
  | .fault _ => s
  | .refused _ => s

/-- The state after one step. -/
def after (s : State) : State := orSelf s (step s)

/-- The state after the presentation of a command. -/
def present (i : Instr) (s : State) : State := orSelf s (exec i s)

/-- STATUS after one step. -/
def statusAfter (s : State) : Word := (after s).regs.status

/-! ### Well-formedness (R82): each check refuses an ill-formed access -/

theorem test_wf_refuses_half_word : (HostAccess.read 2 0x00).wf = false := by decide
theorem test_wf_refuses_byte_write : (HostAccess.write 1 0x00 0).wf = false := by decide
theorem test_wf_refuses_double_word : (HostAccess.read 8 0x00).wideEnough = false := by decide
theorem test_wf_refuses_offset_one : (HostAccess.read 4 0x01).aligned = false := by decide
theorem test_wf_refuses_offset_two : (HostAccess.write 4 0x3E 0).wf = false := by decide
theorem test_wf_accepts_last_word : (HostAccess.read 4 0x3C).wf = true := by decide
theorem test_instr_wf : Instr.abort.wf = true := by decide

/-! ### Decoding: words written out from the command map (R110, R111) -/

theorem test_decode_nop : decode 0b00000000000000000000000000000000 = .ok .nop := by decide
theorem test_decode_reset : decode 0b00000000000000000000000000000001 = .ok .reset := by decide
theorem test_decode_writeBit : decode 0b00000000000000000000000000000010 = .ok .writeBit := by decide
theorem test_decode_readBit : decode 0b00000000000000000000000000000011 = .ok .readBit := by decide
theorem test_decode_writeByte : decode 0b00000000000000000000000000000100 = .ok .writeByte := by decide
theorem test_decode_readByte : decode 0b00000000000000000000000000000101 = .ok .readByte := by decide
theorem test_decode_skipRom : decode 0b00000000000000000000000000000110 = .ok .skipRom := by decide
theorem test_decode_matchRom : decode 0b00000000000000000000000000000111 = .ok .matchRom := by decide
theorem test_decode_readRom : decode 0b00000000000000000000000000001000 = .ok .readRom := by decide
theorem test_decode_convert : decode 0b00000000000000000000000000001001 = .ok .convert := by decide
theorem test_decode_readScratch : decode 0b00000000000000000000000000001010 = .ok .readScratch := by decide
theorem test_decode_readTemp : decode 0b00000000000000000000000000001011 = .ok .readTemp := by decide
theorem test_decode_decode : decode 0b00000000000000000000000000001100 = .ok .decode := by decide
theorem test_decode_abort : decode 0b00000000000000000000000000001111 = .ok .abort := by decide
/-- B12: bits 31:4 are ignored. -/
theorem test_decode_ignored_bits : decode 0xFFFFFFF1 = .ok .reset := by decide
/-- G2: 0x1234567E has the reserved code 0xE. -/
theorem test_decode_reserved : decode 0x1234567E = .error (.reservedCode 0xE) := by decide
theorem test_encode_convert : encode .convert = 0x00000009 := by decide
theorem test_table_word : decodeTableWord 32 0x9 = some .convert := by decide
theorem test_table_word_reserved : decodeTableWord 32 0xD = none := by decide
/-- The first step after reset runs the placed command. -/
theorem test_first_step_runs_placed_command : (statusAfter (State.reset.withFetchWord 32 0x1)) = 1 := by decide

/-! ### The register window -/

/-- A2. -/
theorem test_ctrl_keeps_five_bits : (after (idle [.host (wr .ctrl 0xFFFFFFFF)] [])).regs.ctrl = 0x1F := by decide
/-- A5. -/
theorem test_tickdiv_keeps_sixteen_bits : (after (idle [.host (wr .tickdiv 0x12345)] [])).regs.tickdiv = 0x2345 := by decide
/-- A7. -/
theorem test_present_is_no_w1c_bit : statusAfter (withStatus 0xFE (idle [.host (wr .status 0xFFFFFFFF)] [])) = 0x04 := by decide
/-- A8. -/
theorem test_w1c_clears_written_bit : statusAfter (withStatus 0x5A (idle [.host (wr .status 0x10)] [])) = 0x4A := by decide
/-- A1: CONV_TIMEOUT after reset. -/
theorem test_read_conv_timeout : (after (idle [.host (rd .convTimeout)] [])).rdata = 0x000B71B0 := by decide
/-- H1, H3. -/
theorem test_reset_cycle : (after (running .readTemp 1 (inSlot .w0 3 true) [.rst (some (wr .ctrl 0x1F))] [])).engine = Engine.reset := by decide
theorem test_reset_cycle_ignores_write : (after (idle [.rst (some (wr .ctrl 0x1F))] [])).regs.ctrl = 0 := by decide
/-- G2. -/
theorem test_reserved_code_while_idle : statusAfter (idle [.host (wr .cmd 0x1234567E)] []) = 0x22 := by decide
/-- G3. -/
theorem test_reserved_code_while_busy : statusAfter (running .reset 0 Engine.reset [.host (wr .cmd 0xD)] []) = 0x41 := by decide

/-! ### The commands -/

/-- B8. -/
theorem test_nop : (present .nop (withStatus 0x0A (idle [] []))).regs.status = 0x0A := by decide
/-- B13. -/
theorem test_reset_acceptance : (present .reset (withStatus 0x7E (idle [] []))).regs.status = 0x7D := by decide
/-- B1: the completing tick of a reset slot whose sample was 0. -/
theorem test_reset_presence : statusAfter (running .reset 0 (inSlot .rst 959 false) [] []) = 0x06 := by decide
/-- B4: DATA = 0xFE sends a 0: low in tick 59, released in tick 60. -/
theorem test_writeBit_low : (after (running .writeBit 0 (inSlot .w0 59 false) [] [])).engine.drive = true := by decide
theorem test_writeBit_released : (after (running .writeBit 0 (inSlot .w0 60 false) [] [])).engine.drive = false := by decide
/-- B6: the completing tick. -/
theorem test_readBit_one : (after (running .readBit 0 (inSlot .rd 60 true) [] [])).regs.data = 0x01 := by decide
/-- R137: the sample is taken in tick 15. -/
theorem test_readBit_sample_tick : (after (running .readBit 0 (inSlot .rd 15 false) [] [true])).engine.sampled = true := by decide
/-- R136: the recovery tick of a write-0 slot that another slot follows is released. -/
theorem test_writeByte_recovery_tick : (after (running .writeByte 0 (inSlot .w0 60 false) [] [])).engine.drive = false := by decide
/-- C1: DATA = 0xA5, the slot of bit 1 is W0; a sending byte shifts right. -/
theorem test_writeByte_second_slot : (after (running .writeByte 0 { Engine.reset with sr := 0x52, nbit := 1 } [] [])).engine.slot = some .w0 := by decide
/-- C6: the last bit read is bit 7. -/
theorem test_readByte_last_bit : (after (running .readByte 0 { inSlot .rd 60 true with nbit := 7 } [] [])).regs.data = 0x80 := by decide
/-- C4, with the bits read so far of 0x19 and the last draw 0. -/
theorem test_readByte_value : (after (running .readByte 0 { inSlot .rd 60 false with nbit := 7, buf := 0x19 } [] [])).regs.data = 0x19 := by decide
/-- D1: the first slot of 0xCC is W0. -/
theorem test_skipRom_first_slot : (after (running .skipRom 0 Engine.reset [] [])).engine.slot = some .w0 := by decide
/-- D2: the first address byte sent is 0x28. -/
theorem test_matchRom_first_byte :
    (after { running .matchRom 1 Engine.reset [] [] with regs := { (Regs.reset params0) with status := 1, addrLo := 0x1D4CFF28, addrHi := 0x5A031662 } }).engine.sr = 0x28 := by decide
/-- D4: the completing tick. -/
theorem test_readRom_low : (after (running .readRom 1 { inSlot .rd 60 false with nbit := 7, nbyte := 7, buf := 0x5A0316621D4CFF28 } [] [])).regs.romLo = 0x1D4CFF28 := by decide
theorem test_readRom_high : (after (running .readRom 1 { inSlot .rd 60 false with nbit := 7, nbyte := 7, buf := 0x5A0316621D4CFF28 } [] [])).regs.romHi = 0x5A031662 := by decide
/-- A poll at tick 16 of its 16, with this level in its sample (E5, E6). -/
def pollAtBound (level : Bool) : State :=
  let s := running .convert 3 { inSlot .rd 15 false with pollE := 15, pres := true, presValid := true } [] [level]
  { s with regs := { s.regs with convTimeout := 16 } }
/-- E5: the sample beats the timeout test in the same tick. -/
theorem test_convert_sample_beats_timeout : statusAfter (pollAtBound true) = 0x01 := by decide
/-- E6. -/
theorem test_convert_timeout : statusAfter (pollAtBound false) = 0x16 := by decide
/-- CONVERT at the start of byte n of its addressing step, under this CTRL and the address of D2. -/
def addressing (ctrl : Word) (n : Nat) : State :=
  let s := running .convert 1 { Engine.reset with nbyte := n } [] []
  { s with regs := { s.regs with ctrl := ctrl, addrLo := 0x1D4CFF28, addrHi := 0x5A031662 } }
/-- R190: the skip command when CTRL[0] is 0. -/
theorem test_convert_broadcast : (after (addressing 0x1E 0)).engine.sr = 0xCC := by decide
/-- R190: the match command and then byte 0 of the address when CTRL[0] is 1. -/
theorem test_convert_unicast : (after (addressing 0x01 0)).engine.sr = 0x55 ∧ (after (addressing 0x01 1)).engine.sr = 0x28 := by decide
/-- E14: the completing tick. -/
def scratchEnd (i : Instr) (n : Nat) (ctrl : Word) (raw : BitVec 64) (last : Bool) : State :=
  let s := running i n { inSlot .rd 60 last with nbit := 7, nbyte := 1, buf := raw, pres := true, presValid := true } [] []
  { s with regs := { s.regs with ctrl := ctrl } }
theorem test_readScratch_whole : (after (scratchEnd .readScratch 3 0 0x0191 false)).regs.tempWhole = 25 := by decide
theorem test_readScratch_frac : (after (scratchEnd .readScratch 3 0 0x0191 false)).regs.tempFrac = 625 := by decide
/-- E17: the completing tick. -/
theorem test_readTemp_fahrenheit : (after (scratchEnd .readTemp 7 3 0x7E6F true)).regs.tempWhole = 0xFFFFFFF3 := by decide
/-- E18: absence in phase 2. -/
theorem test_readTemp_gone : statusAfter (running .readTemp 4 (inSlot .rst 959 true) [] []) = 0x0A := by decide
/-- The idle state with this RAW and CTRL. -/
def withRaw (raw ctrl : Word) : State :=
  let s := idle [] []
  { s with regs := { s.regs with raw := raw, ctrl := ctrl } }
/-- S8. -/
theorem test_decode_reference : (present .decode (withRaw 0xFF60 0)).regs.tempWhole = 118 := by decide
/-- 0xFE6F under FahrTrunc. -/
theorem test_decode_negative_fraction : (present .decode (withRaw 0xFE6F 2)).regs.tempFrac = 0x80000001 := by decide
/-- B10, with PRESENT 0 before. -/
theorem test_abort_running : (present .abort (running .readTemp 3 { inSlot .rd 15 false with pres := true, presValid := true } [] [])).regs.status = 0x82 := by decide
/-- B9. -/
theorem test_abort_idle : (present .abort (withStatus 0x06 (idle [] []))).regs.status = 0x06 := by decide

/-! ### The interrupt output -/

/-- The idle machine with DONE = 1 under this CTRL. -/
def doneUnder (ctrl : Word) (pending : List Event) : State :=
  let s := withStatus 2 (idle pending [])
  { s with regs := { s.regs with ctrl := ctrl } }
/-- G6: clearing DONE lowers irq. -/
theorem test_irq_falls_with_done : (doneUnder 0x10 [.host (wr .status 0x02)]).irq = true ∧ (after (doneUnder 0x10 [.host (wr .status 0x02)])).irq = false := by decide
/-- G7: acceptance lowers irq. -/
theorem test_irq_falls_at_acceptance : (after (doneUnder 0x10 [.host (ow .reset)])).irq = false := by decide

/-! ### Witnesses: for every statement with hypotheses, a state that meets them together -/

/-- A busy machine in tick 3 of a write-0 slot of WRITE_BYTE. -/
def busyAt (pending : List Event) (levels : List Bool) : State :=
  running .writeByte 0 (inSlot .w0 3 false) pending levels

theorem witness_StepPresentsTheDecodedCommand :
    decode 0xFFFFFFF9 = .ok .convert ∧ (idle [.host (.write 4 0x04 0xFFFFFFF9)] []).pending = [.host (.write 4 0x04 0xFFFFFFF9)] := by decide
theorem witness_StepTicksTheEngine :
    (busyAt [] []).pending = [] ∧ (busyAt [.tick] []).pending = [.tick] ∧ (idle [] []).busy = false := by decide
theorem witness_ReservedCodesAreReportedOnly :
    ((0x1D : Word).extractLsb' 0 4 = 0xD#4 ∧ (idle [.host (.write 4 0x04 0x1D)] []).busy = false) ∧
    ((0xE : Word).extractLsb' 0 4 = 0xE#4 ∧ (busyAt [.host (.write 4 0x04 0xE)] []).busy = true) := by decide
theorem witness_HostReadHasNoSideEffect :
    (idle [.host (.read 4 0x00)] []).pending = [.host (.read 4 0x00)] ∧ (busyAt [.host (.read 4 0x3C)] []).pending = [.host (.read 4 0x3C)] := by decide
theorem witness_IdleWriteStoresDefinedBits :
    (idle [.host (.write 4 0x00 0xFFFFFFFF)] []).busy = false ∧ (idle [.host (.write 4 0x30 0x12345)] []).busy = false := by decide
theorem witness_BusyWriteOnlySetsErrBusy :
    (busyAt [.host (.write 4 0x30 1)] []).busy = true ∧ (0xFFFFFFFE : Word).extractLsb' 0 4 ≠ 0xF#4 ∧ (busyAt [.host (.write 4 0x04 0xFFFFFFFE)] []).busy = true := by decide
theorem witness_StatusWriteClearsWrittenOnes :
    (withStatus 0xFE (idle [.host (.write 4 0x08 0xFFFFFFFF)] [])).pending = [.host (.write 4 0x08 0xFFFFFFFF)] := by decide
theorem witness_ReadOnlyAndUnmappedWritesAreIgnored :
    (idle [.host (.write 4 0x18 5)] []).pending = [.host (.write 4 0x18 5)] ∧ (busyAt [.host (.write 4 0x3C 5)] []).pending = [.host (.write 4 0x3C 5)] := by decide
theorem witness_UndefinedAccessesAreRefused :
    ((2 : Nat) ≠ 4 ∧ (idle [.host (.read 2 0x00)] []).pending = [.host (.read 2 0x00)]) ∧
    ((1 : Nat) ≠ 4 ∧ (0x3F : Offset).extractLsb' 0 2 ≠ 0#2 ∧
      (idle [.host (.write 1 0x3F 7)] []).pending = [.host (.write 1 0x3F 7)]) ∧
    ((0x3F : Offset).extractLsb' 0 2 ≠ 0#2 ∧ (idle [.host (.write 4 0x3F 7)] []).pending = [.host (.write 4 0x3F 7)]) ∧
    ((0x3C : Offset).extractLsb' 0 2 = 0#2 ∧ (idle [.host (.write 4 0x3C 7)] []).pending = [.host (.write 4 0x3C 7)]) := by decide
theorem witness_ClrstatReturnsFromAnError :
    (withStatus 0x0E (idle [.host clrstat] [])).pending = [.host clrstat] := by decide
theorem witness_ResetCycleRestoresEveryResetValue :
    (busyAt [.rst (some (wr .ctrl 0x1F))] []).pending = [.rst (some (wr .ctrl 0x1F))] := by decide
theorem witness_TickCommandsAreAcceptedWhenIdle : (withStatus 0xFE (idle [] [])).busy = false := by decide

theorem idle_atRest (pe : List Event) (l : List Bool) : (idle pe l).AtRest := ⟨rfl, rfl, rfl⟩

theorem witness_NopSetsDoneAlone :
    ((idle [] []).busy = false ∧ (idle [] []).AtRest) ∧ (busyAt [] []).busy = true :=
  ⟨⟨by decide, idle_atRest _ _⟩, by decide⟩
theorem witness_DecodeWritesTheReadingOfRaw :
    ((withRaw 0xFF60 4).busy = false ∧ (withRaw 0xFF60 4).AtRest) ∧ (busyAt [] []).busy = true :=
  ⟨⟨by decide, ⟨rfl, rfl, rfl⟩⟩, by decide⟩
theorem witness_AbortEndsTheRunningCommand : (busyAt [] []).busy = true ∧ (idle [] []).busy = false := by decide
theorem witness_BusyMachineDropsEveryOtherCommand : Instr.decode ≠ .abort ∧ (busyAt [] []).busy = true := by decide
theorem witness_SlotWavesAreTheSpecified : SlotKind.rst.samplesAt 540 = true ∧ SlotKind.rd.samplesAt 15 = true := by decide

/-- The recovery tick of a write-0 slot that another slot follows, and the first tick of a slot. -/
theorem witness_OneTickDrivesThePin :
    let last := running .writeByte 0 (inSlot .w0 60 false) [] []
    let first := running .readBit 0 Engine.reset [] []
    (engineTick last = .next (after last) ∧ (after last).busy = true ∧ (after last).engine.slot = none) ∧
    (engineTick first = .next (after first) ∧ (after first).busy = true ∧ first.engine.slot = none) :=
  ⟨⟨rfl, by decide, by decide⟩, rfl, by decide, by decide⟩
/-- The sample tick and the last tick but one of a read slot, and a tick of a write slot. -/
theorem witness_OneTickDrivesSamplesAndCounts :
    (running .readBit 0 (inSlot .rd 15 false) [] []).busy = true ∧
    (running .readBit 0 (inSlot .rd 15 false) [] []).currentStep = some .rbit ∧ MicroStep.rbit ≠ .poll ∧
    15 + 1 < SlotKind.rd.length params0 ∧ 59 + 1 < SlotKind.rd.length params0 ∧
    (busyAt [] []).currentStep = some (.wb 0) ∧ (busyAt [] []).engine.slot = some .w0 ∧
    (busyAt [] []).engine.k + 1 < SlotKind.w0.length params0 := by decide
/-- The idle machine meets the hypothesis of ResetReportsPresence, WriteBitSendsDataBitZero,
ReadBitWritesTheSampleToData, WriteByteSendsLeastSignificantBitFirst, ReadByteAssemblesLeastSignificantBitFirst,
SkipRomSendsItsCommandByte, MatchRomSendsTheAddressInOrder and ReadRomCollectsSixtyFourBits. -/
theorem witness_runs_of_bits_and_bytes : (idle [] [true, false]).busy = false := by decide
theorem witness_WrittenByteReadsBack :
    (idle [] [true, false, true, false, false, true, false, true]).busy = false ∧
    ∀ i < 8, (idle [] [true, false, true, false, false, true, false, true]).levelAt i =
      !((if (0xA5 : Byte).getLsbD i then SlotKind.w1 else SlotKind.w0).drivesLow 15) := by decide
theorem witness_AbsenceEndsAConversionCommand : (idle [] [true]).busy = false ∧ (idle [] [true]).levelAt 0 = true := by decide

/-- An idle machine whose poll bound is n. -/
def bounded (n : Word) (levels : List Bool) : State :=
  let s := idle [] levels
  { s with regs := { s.regs with convTimeout := n } }

/-- E10 and E11: the second poll sample is 1, with the tightest bound and with none. -/
theorem witness_ConvertCompletesWhenThePollReadsOne :
    ((bounded 77 [false, false, true]).busy = false ∧ (bounded 77 [false, false, true]).levelAt 0 = false ∧
      (∀ j < 1, (bounded 77 [false, false, true]).levelAt (1 + j) = false) ∧ (bounded 77 [false, false, true]).levelAt 2 = true ∧
      1 * (60 + params0.tRec) + 16 ≤ (bounded 77 [false, false, true]).regs.convTimeout.toNat) ∧
    ((bounded 0 [false, true]).levelAt 0 = false ∧ (bounded 0 [false, true]).levelAt 1 = true ∧
      (bounded 0 [false, true]).regs.convTimeout.toNat = 0) := by decide
/-- E6 and E3: a bound of 16 with one sample of 0, and a bound of 1 with none. -/
theorem witness_PollTimesOutExactlyAtTheBound :
    (bounded 16 [false, false]).busy = false ∧ (bounded 16 [false, false]).levelAt 0 = false ∧
    (bounded 16 [false, false]).regs.convTimeout.toNat = 16 ∧
    (∀ j, j * (60 + (bounded 16 [false, false]).params.tRec) + 16 ≤ 16 → (bounded 16 [false, false]).levelAt (1 + j) = false) ∧
    (bounded 1 [false]).levelAt 0 = false ∧ (bounded 1 [false]).regs.convTimeout.toNat = 1 ∧
    (∀ j, j * (60 + (bounded 1 [false]).params.tRec) + 16 ≤ 1 → (bounded 1 [false]).levelAt (1 + j) = false) := by
  refine ⟨by decide, by decide, by decide, fun j hj => ?_, by decide, by decide, fun j hj => ?_⟩
  · have h : j = 0 := by
      rcases Nat.eq_zero_or_pos j with h | h
      · exact h
      · have : (60 + (bounded 16 [false, false]).params.tRec) ≤ j * (60 + (bounded 16 [false, false]).params.tRec) := Nat.le_mul_of_pos_left _ h
        omega
    subst h
    decide
  · omega
theorem witness_UnboundedPollKeepsTicking :
    (bounded 0 [false, false, false]).busy = false ∧ (bounded 0 [false, false, false]).levelAt 0 = false ∧
    (bounded 0 [false, false, false]).regs.convTimeout = 0 ∧ ∀ j < 2, (bounded 0 [false, false, false]).levelAt (1 + j) = false := by decide
/-- Unicast and broadcast machines with a device present meet the hypotheses of the conversion statements alike. -/
theorem witness_conversion_unicast :
    let s := { bounded 16 [false, true, false] with regs := { (bounded 16 []).regs with ctrl := 1, addrLo := 0x1D4CFF28 } }
    s.busy = false ∧ s.levelAt 0 = false ∧ s.levelAt 1 = true ∧ s.levelAt 2 = false ∧
    0 * (60 + s.params.tRec) + 16 ≤ s.regs.convTimeout.toNat := by decide
theorem witness_ReadScratchReadsAndDecodes : (idle [] [false]).busy = false ∧ (idle [] [false]).levelAt 0 = false := by decide
theorem witness_ReadTempRunsBothPhases :
    (bounded 16 [false, true, false]).busy = false ∧ (bounded 16 [false, true, false]).levelAt 0 = false ∧
    (∀ j < 0, (bounded 16 [false, true, false]).levelAt (1 + j) = false) ∧ (bounded 16 [false, true, false]).levelAt 1 = true ∧
    0 * (60 + params0.tRec) + 16 ≤ (bounded 16 [false, true, false]).regs.convTimeout.toNat ∧
    (bounded 16 [false, true, false]).levelAt 2 = false := by decide
theorem witness_ReadTempEndsWhenTheDeviceIsGone :
    (bounded 16 [false, true, true]).busy = false ∧ (bounded 16 [false, true, true]).levelAt 0 = false ∧
    (bounded 16 [false, true, true]).levelAt 1 = true ∧
    0 * (60 + params0.tRec) + 16 ≤ (bounded 16 [false, true, true]).regs.convTimeout.toNat ∧
    (bounded 16 [false, true, true]).levelAt 2 = true := by decide

/-- The last tick of RESET, with an answer. -/
def resetEnds : State := running .reset 0 (inSlot .rst 959 false) [] []

/-- A busy state that meets the invariant. -/
theorem resetEnds_inv : resetEnds.Inv := by
  refine ⟨fun x => by cases x <;> decide, by decide, by decide, fun h => ?_, fun _ => ⟨.rstp, ?_⟩⟩
  · exact absurd h (by decide)
  · refine ⟨rfl, by decide, by decide, by decide, ?_, ?_, ?_⟩ <;> intro kd h <;> cases h <;> decide

/-- The last tick of READ_ROM. -/
def readRomEnds : State :=
  running .readRom 1 { inSlot .rd 60 false with nbit := 7, nbyte := 7, buf := 0x5A0316621D4CFF28 } [] []

theorem witness_EveryStepKeepsTheInvariant : resetEnds.Inv ∧ step resetEnds = .next (after resetEnds) :=
  ⟨resetEnds_inv, rfl⟩
theorem witness_GoodMachineNeverStops : resetEnds.Inv ∧ resetEnds.nextEvent.Defined := ⟨resetEnds_inv, trivial⟩
theorem witness_OperandsAreFrozenWhileBusy :
    (busyAt [.host (wr .ctrl 3)] []).busy = true ∧ (∀ a, (busyAt [.host (wr .ctrl 3)] []).nextEvent ≠ .rst a) ∧
    step (busyAt [.host (wr .ctrl 3)] []) = .next (after (busyAt [.host (wr .ctrl 3)] [])) :=
  ⟨by decide, fun _ h => Event.noConfusion h, rfl⟩
theorem witness_NothingIsVisibleBeforeCompletion :
    (busyAt [] []).busy = true ∧ step (busyAt [] []) = .next (after (busyAt [] [])) ∧ (after (busyAt [] [])).busy = true :=
  ⟨by decide, rfl, by decide⟩
theorem witness_EveryEndSetsDoneAndReleasesTheLine :
    resetEnds.busy = true ∧ step resetEnds = .next (after resetEnds) ∧ (after resetEnds).busy = false ∧
    (∀ a, resetEnds.nextEvent ≠ .rst a) :=
  ⟨by decide, rfl, by decide, fun _ h => Event.noConfusion h⟩
/-- Every error bit set, one other bit written: the boundary bits 3 and 7 stay. -/
theorem witness_ErrorBitsAreSticky :
    let s := withStatus 0xF8 (idle [.host (.write 4 0x08 0x72)] [])
    s.regs.status.getLsbD 3 = true ∧ s.regs.status.getLsbD 7 = true ∧ step s = .next (after s) ∧
    (∀ a, s.nextEvent ≠ .rst a) ∧ (∀ v, s.nextEvent = .host (.write 4 0x08 v) → v.getLsbD 3 = false ∧ v.getLsbD 7 = false) :=
  ⟨by decide, by decide, rfl, fun _ h => Event.noConfusion h, fun v h => by cases h; decide⟩
theorem witness_OnlyReadRomWritesRom :
    step readRomEnds = .next (after readRomEnds) ∧ (after readRomEnds).regs.romLo ≠ readRomEnds.regs.romLo :=
  ⟨rfl, by decide⟩
theorem witness_OnlyResetSlotCommandsWritePresent :
    resetEnds.Inv ∧ step resetEnds = .next (after resetEnds) ∧ (after resetEnds).present ≠ resetEnds.present :=
  ⟨resetEnds_inv, rfl, by decide⟩
theorem witness_TemperatureRegistersHoldAReading :
    step (scratchEnd .readScratch 3 0 0x0191 false) = .next (after (scratchEnd .readScratch 3 0 0x0191 false)) ∧
    (after (scratchEnd .readScratch 3 0 0x0191 false)).regs.tempWhole ≠ (scratchEnd .readScratch 3 0 0x0191 false).regs.tempWhole :=
  ⟨rfl, by decide⟩
theorem witness_ParametersNeverChange : step resetEnds = .next (after resetEnds) := rfl
/-- A6: TICKDIV = 0 counts as 1; and TICKDIV = 16. -/
theorem witness_ATickLastsTickdivClockCycles :
    let z := busyAt [.clk] []
    ({ z with regs := { z.regs with tickdiv := 0 } } : State).regs.tickCycles = 1 ∧
    (busyAt (List.replicate 16 .clk) []).busy = true ∧ (busyAt (List.replicate 16 .clk) []).engine.psc = 0 ∧
    (busyAt (List.replicate 16 .clk) []).pending = List.replicate (max ((busyAt [] []).regs.tickdiv.extractLsb' 0 16).toNat 1) .clk ++ [] := by decide
theorem witness_SetaddrLoadsTheDeviceAddress :
    (idle ((setaddr 0x5A0316621D4CFF28).map .host) []).busy = false ∧
    (idle ((setaddr 0x5A0316621D4CFF28).map .host) []).pending = (setaddr 0x5A0316621D4CFF28).map .host ++ [] := by decide
/-- A witness of each clause: the end of RESET and an ABORT; the codes 0x0, 0xC, 0xD and 0xE; the codes 0x1 and 0xB; the
acknowledgement of DONE, which changes irq; IE written 0 and 1; a reset cycle. -/
theorem witness_InterruptIsIeAndDone :
    (resetEnds.busy = true ∧ step resetEnds = .next (after resetEnds) ∧ (after resetEnds).busy = false) ∧
    ((busyAt [.host (ow .abort)] []).busy = true ∧ (after (busyAt [.host (ow .abort)] [])).busy = false) ∧
    (∀ v ∈ [(0x0 : Word), 0xFFFFFFFC, 0xD, 0xE, 0x1, 0xB], (doneUnder 0x10 [.host (.write 4 0x04 v)]).busy = false ∧
      (doneUnder 0x10 [.host (.write 4 0x04 v)]).nextEvent = .host (.write 4 0x04 v)) ∧
    ((0xFFFFFFFC : Word).extractLsb' 0 4 ∈ [0x0#4, 0xC, 0xD, 0xE] ∧ 0x1#4 ≤ (0x1 : Word).extractLsb' 0 4 ∧
      (0xB : Word).extractLsb' 0 4 ≤ 0xB#4) ∧
    ((doneUnder 0x10 [.host (.write 4 0x08 2)]).nextEvent = .host (.write 4 0x08 2) ∧ (2 : Word).getLsbD 1 = true ∧
      (after (doneUnder 0x10 [.host (.write 4 0x08 2)])).irq ≠ (doneUnder 0x10 [.host (.write 4 0x08 2)]).irq) ∧
    ((doneUnder 0x10 [.host (.write 4 0x00 0x0F)]).busy = false ∧ (after (doneUnder 0x10 [.host (.write 4 0x00 0x0F)])).irq = false ∧
      (after (doneUnder 0 [.host (.write 4 0x00 0x10)])).irq = true) ∧
    (doneUnder 0x10 [.rst none]).nextEvent = .rst none :=
  ⟨⟨by decide, rfl, by decide⟩, by decide, fun _ _ => ⟨show (2 : Word).getLsbD 0 = false by decide, rfl⟩, by decide, by decide, by decide, rfl⟩

end Sys2Proof.Tests
end

section
/-! PROOF of O48. The parameters of R12 through each shared operation, then through everything a tick, a host access
and a step can do. -/

namespace Sys2Proof.Machine

variable {s t : State}

@[simp] theorem commit_params (i : Instr) (s : State) : (s.commit i).params = s.params := by
  cases i <;> rfl

@[simp] theorem complete_params (i : Instr) (s : State) : (s.complete i).params = s.params := by
  simp only [State.complete, endCommand_params, commit_params]

/-- Whether an error end records PRESENT or not (R245), it leaves the parameters alone. -/
@[simp] theorem raise_params (e : RunError) (s : State) : (s.raise e).params = s.params := by
  unfold State.raise
  cases s.engine.presValid <;> rfl

theorem TickEnds.params_eq {m : MicroStep} (h : TickEnds m s t) : t.params = s.params := by
  cases h with
  | goesOn h => exact h.params
  | completes u i h _ _ ends => rw [ends, complete_params, h.params]
  | raises u e h _ ends => rw [ends, raise_params, h.params]

/-- The parameters are no registers: no host access reaches them (R13, R30). -/
theorem HostDoes.params_eq {a : HostAccess} (h : HostDoes a s t) : t.params = s.params := by
  cases h with
  | reads v h => rw [h]
  | ignored h => rw [h]
  | violates _ h => rw [h, State.busyViolation, setStatus_params]
  | clears v _ h => rw [h, State.clearStatus]
  | stores r v _ _ h => rw [h]
  | illegal _ h => rw [h, State.illegalCommand, setStatus_params, setStatus_params]
  | accepts i _ _ h => rw [h, accept_params]
  | atOnce i _ _ h => rw [h, complete_params, setStatus_params]
  | aborts _ h => rw [h, State.abortRunning, setStatus_params, endCommand_params, State.dropSlot]

/-- A reset cycle reads `TICKDIV_RESET` and writes no parameter (R270). -/
theorem step_params (h : step s = .next t) : t.params = s.params := by
  obtain ⟨_, -, rfl⟩ | ⟨_, -, hHost⟩ | ⟨-, rfl⟩ | ⟨-, -, rfl⟩ | ⟨-, _, -, hTick⟩ := step_cases h
  · rfl
  · exact hHost.params_eq
  · exact taken_params s
  · exact taken_params s
  · exact hTick.params_eq

/-- Settles O48: each thing a step can do (`step_cases`) keeps the parameters. -/
theorem parametersNeverChange : Obligations.ParametersNeverChange := by
  unfold Obligations.ParametersNeverChange
  exact fun _ _ h => step_params h

end Sys2Proof.Machine
end

section
/-! SUPPORT for the statements about the state. The reserved bits through a write of any register and through each shared
operation (R31, R45), and the bits of STATUS. -/

namespace Sys2Proof.Machine

variable {s : State}

/-- A word has no bit outside a mask exactly when each of its bits is one of the mask's. -/
theorem and_not_eq_zero_iff {n : Nat} {w mask : BitVec n} :
    w &&& ~~~mask = 0 ↔ ∀ j, w.getLsbD j = true → mask.getLsbD j = true := by
  constructor
  · intro h j hj
    have hlt : j < n := BitVec.lt_of_getLsbD hj
    have hz : (w &&& ~~~mask).getLsbD j = false := by simp [h]
    simpa [hj, hlt] using hz
  · intro h
    apply word_ext
    intro j
    cases hj : w.getLsbD j with
    | false => simp [hj]
    | true => simp [h j hj]

theorem masked_reserved (v mask : Word) : v &&& mask &&& ~~~mask = 0 :=
  and_not_eq_zero_iff.2 fun j hj => by
    rw [BitVec.getLsbD_and, Bool.and_eq_true] at hj
    exact hj.2

/-- A register without reserved bits. -/
theorem unmasked_reserved (v : Word) : v &&& ~~~(0xFFFFFFFF : Word) = 0 := by
  rw [show ~~~(0xFFFFFFFF : Word) = 0#32 by decide]
  exact BitVec.and_zero

/-- A field stored in the low bits of a register (R15, R45). -/
theorem zext32_reserved {n : Nat} (x : BitVec n) {mask : Word} (hm : ∀ j < n, mask.getLsbD j = true) :
    zext32 x &&& ~~~mask = 0 := by
  refine and_not_eq_zero_iff.2 fun j hj => hm j (BitVec.lt_of_getLsbD (x := x) ?_)
  rw [zext32, BitVec.getLsbD_setWidth, Bool.and_eq_true] at hj
  exact hj.2

theorem setBit_reserved {w mask : Word} {i : Nat} {b : Bool} (h : w &&& ~~~mask = 0) (hi : mask.getLsbD i = true) :
    setBit w i b &&& ~~~mask = 0 := by
  refine and_not_eq_zero_iff.2 fun j hj => ?_
  by_cases hji : j = i
  · rw [hji]
    exact hi
  · rw [getLsbD_setBit, if_neg fun e => hji e.1] at hj
    exact and_not_eq_zero_iff.1 h j hj

/-- Bits 16 to 29 of a packed fraction are 0, whatever the reading (R42, R212). -/
theorem fracWord_reserved (x : Reading) : x.fracWord &&& ~~~Reg.mask .tempFrac = 0 := by
  have hm : ∀ j < 32, ¬ (16 ≤ j ∧ j < 30) → (Reg.mask .tempFrac).getLsbD j = true := by decide
  refine and_not_eq_zero_iff.2 fun j hj => hm j (BitVec.lt_of_getLsbD hj) ?_
  rintro ⟨h1, h2⟩
  have : x.fracWord.getLsbD j = false := by
    unfold Reading.fracWord
    rw [BitVec.getLsbD_append, if_pos (by omega), BitVec.getLsbD_append, if_pos (by omega), BitVec.getLsbD_append,
      if_neg (by omega), BitVec.getLsbD_zero]
  rw [this] at hj
  cases hj

/-- The W1C bits of STATUS: DONE and the five errors, not BUSY and not PRESENT (R35). -/
theorem w1cMask_getLsbD (j : Nat) : w1cMask.getLsbD j = decide (j ∈ [1, 3, 4, 5, 6, 7]) := by
  by_cases hj : j < 32
  · have h : ∀ k < 32, w1cMask.getLsbD k = decide (k ∈ [1, 3, 4, 5, 6, 7]) := by decide
    exact h j hj
  · rw [BitVec.getLsbD_of_ge _ _ (Nat.le_of_not_lt hj), eq_comm, decide_eq_false_iff_not]
    simp only [List.mem_cons, List.not_mem_nil, or_false]
    omega

/-- The write-one-to-clear rule bit by bit (R35, R85). -/
theorem clearStatus_getLsbD (v : Word) (s : State) (j : Nat) :
    (s.clearStatus v).regs.status.getLsbD j =
      (s.regs.status.getLsbD j && !(v.getLsbD j && decide (j ∈ [1, 3, 4, 5, 6, 7]))) := by
  show (s.regs.status &&& ~~~(v &&& w1cMask)).getLsbD j = _
  rw [BitVec.getLsbD_and, BitVec.getLsbD_not, BitVec.getLsbD_and, w1cMask_getLsbD]
  cases hs : s.regs.status.getLsbD j with
  | false => rfl
  | true => simp [BitVec.lt_of_getLsbD hs]

@[simp] theorem clearStatus_busy (v : Word) (s : State) : (s.clearStatus v).busy = s.busy := by
  unfold State.busy
  rw [clearStatus_getLsbD]
  simp

/-- A write of an RW-idle register leaves the registers of the other classes alone (R31). -/
theorem put_rwIdle_get (r : Regs) (v : Word) {x y : Reg} (hx : x.accessClass = .rwIdle) (hy : y.accessClass ≠ .rwIdle) :
    (r.put v x).get y = r.get y :=
  get_put_other r v x y fun e => hy (e ▸ hx)

theorem put_rwIdle_status (r : Regs) (v : Word) {x : Reg} (hx : x.accessClass = .rwIdle) :
    (r.put v x).status = r.status :=
  put_rwIdle_get r v (y := .status) hx (by decide)

/-- A write of a word without reserved bits keeps them 0. -/
theorem Regs.ReservedZero.put {r : Regs} (h : r.ReservedZero) {v : Word} {x : Reg} (hv : v &&& ~~~x.mask = 0) :
    (r.put v x).ReservedZero := by
  intro y
  by_cases hxy : x = y
  · subst hxy
    by_cases hc : x = .cmd
    · subst hc
      exact h .cmd
    · rw [get_put_same r v x hc]
      exact hv
  · rw [get_put_other r v x y hxy]
    exact h y

theorem Regs.ReservedZero.setStatus (h : s.regs.ReservedZero) {i : Nat} {b : Bool} (hi : i < 8) :
    (s.setStatus i b).regs.ReservedZero :=
  have hm : ∀ j < 8, (Reg.mask .status).getLsbD j = true := by decide
  h.put (x := .status) (setBit_reserved (h .status) (hm i hi))

theorem Regs.ReservedZero.clearStatus (h : s.regs.ReservedZero) (v : Word) : (s.clearStatus v).regs.ReservedZero := by
  refine h.put (x := .status) (and_not_eq_zero_iff.2 fun j hj => ?_)
  rw [BitVec.getLsbD_and, Bool.and_eq_true] at hj
  exact and_not_eq_zero_iff.1 (h .status) j hj.1

theorem Regs.ReservedZero.endCommand (h : s.regs.ReservedZero) : s.endCommand.regs.ReservedZero :=
  (h.setStatus (i := bitBusy) (b := false) (by decide)).setStatus (i := bitDone) (by decide)

theorem Regs.ReservedZero.decodeTemp (h : s.regs.ReservedZero) : s.decodeTemp.regs.ReservedZero :=
  (h.put (x := .tempWhole) (unmasked_reserved s.regs.reading.wholeWord)).put (x := .tempFrac)
    (fracWord_reserved s.regs.reading)

theorem Regs.ReservedZero.commitScratch (h : s.regs.ReservedZero) : s.commitScratch.regs.ReservedZero :=
  Regs.ReservedZero.decodeTemp (s := State.mk ..)
    ((h.setStatus (i := bitPresent) (by decide)).put (x := .raw) (zext32_reserved _ (by decide)))

/-- Every commit of R133 writes whole fields. -/
theorem Regs.ReservedZero.commit (h : s.regs.ReservedZero) (i : Instr) : (s.commit i).regs.ReservedZero := by
  cases i
  case reset => exact h.setStatus (by decide)
  case convert => exact h.setStatus (by decide)
  case readBit => exact h.put (x := .data) (zext32_reserved _ (by decide))
  case readByte => exact h.put (x := .data) (zext32_reserved _ (by decide))
  case readRom =>
    exact (h.put (x := .romLo) (unmasked_reserved (s.engine.buf.extractLsb' 0 32))).put (x := .romHi)
      (unmasked_reserved (s.engine.buf.extractLsb' 32 32))
  case readScratch => exact h.commitScratch
  case readTemp => exact h.commitScratch
  case decode => exact h.decodeTemp
  all_goals exact h

theorem Regs.ReservedZero.complete (h : s.regs.ReservedZero) (i : Instr) : (s.complete i).regs.ReservedZero :=
  (h.commit i).endCommand

theorem RunError.code_lt (e : RunError) : e.code < 8 := by
  cases e <;> decide

theorem Regs.ReservedZero.raise (h : s.regs.ReservedZero) (e : RunError) : (s.raise e).regs.ReservedZero := by
  have hp : (if s.engine.presValid then s.commitPresent else s).regs.ReservedZero := by
    split
    · exact h.setStatus (by decide)
    · exact h
  exact Regs.ReservedZero.endCommand (s := State.dropSlot _) (hp.setStatus e.code_lt)

theorem reset_reserved (p : Params) : (Regs.reset p).ReservedZero := by
  intro x
  cases x
  case tickdiv => exact zext32_reserved p.tickdivReset (by decide)
  case convTimeout => exact unmasked_reserved 750000
  all_goals exact BitVec.zero_and

end Sys2Proof.Machine
end

section
/-! PROOF of O38 and O39. The invariant at reset, through every host access, and through every tick: a tick ends inside its
slot, at the end of a slot, or with the end of the command. -/

namespace Sys2Proof.Machine

variable {s t u : State} {m : MicroStep} {kd : SlotKind} {i : Instr}

/-! ### Machines at rest -/

/-- The invariant of an idle machine. -/
theorem State.Inv.of_rest (hr : t.regs.ReservedZero) (he : t.engine.pollE < 2 ^ 32) (hp : t.engine.psc < 2 ^ 16)
    (hb : t.busy = false) (ha : t.AtRest) : t.Inv where
  reserved := hr
  pollE := he
  psc := hp
  rest _ := ha
  runs h := absurd h (by simp [hb])

/-- A machine with every register and the engine at its reset value meets the invariant (R70). -/
theorem inv_of_reset (hr : t.regs = Regs.reset t.params) (he : t.engine = Engine.reset) : t.Inv := by
  refine .of_rest (hr ▸ reset_reserved _) ?_ ?_ ?_ ⟨?_, ?_, ?_⟩ <;>
    simp [State.busy, hr, he, Engine.reset, Regs.reset]

@[simp] theorem commit_engine (s : State) (i : Instr) : (s.commit i).engine = s.engine := by
  cases i <;> rfl

/-- Completion leaves the engine at rest when the last slot is over (R134, R99). -/
theorem complete_inv (hr : s.regs.ReservedZero) (he : s.engine.pollE < 2 ^ 32) (hp : s.engine.psc < 2 ^ 16)
    (hs : s.engine.slot = none) (i : Instr) : (s.complete i).Inv := by
  refine .of_rest (hr.complete i) ?_ ?_ (complete_busy s i) ⟨rfl, ?_, rfl⟩ <;> simpa [State.complete]

/-- An error end leaves the engine at rest, whatever the slot (R245). -/
theorem raise_inv (hr : s.regs.ReservedZero) (he : s.engine.pollE < 2 ^ 32) (hp : s.engine.psc < 2 ^ 16)
    (e : RunError) : (s.raise e).Inv := by
  have hk : (s.raise e).engine = { s.engine with slot := none, drive := false, seq := .idle } := by
    unfold State.raise
    cases s.engine.presValid <;> rfl
  refine .of_rest (hr.raise e) ?_ ?_ (raise_busy s e) ⟨?_, ?_, ?_⟩ <;> rw [hk]
  · exact he
  · exact hp

/-- ABORT leaves the engine at rest (R140). -/
theorem abortRunning_inv (h : s.Inv) : s.abortRunning.Inv :=
  .of_rest ((Regs.ReservedZero.endCommand (s := s.dropSlot) h.reserved).setStatus (by decide)) h.pollE h.psc
    (by simp [State.abortRunning, errAbortedCode]) ⟨rfl, rfl, rfl⟩

/-! ### A running command -/

/-- No micro-program reads STATUS (R112, R133). -/
theorem program_of_status (p : Params) (r : Regs) (w : Word) (i : Instr) :
    program p { r with status := w } i = program p r i := by
  cases i <;> rfl

theorem bytes_of_status (r : Regs) (w : Word) (m : MicroStep) :
    m.bytes { r with status := w } = m.bytes r := by
  cases m <;> rfl

/-- Every micro-step of a program moves at least one byte or slot. -/
theorem program_bytes_pos (p : Params) (r : Regs) (h : m ∈ program p r i) : 0 < m.bytes r := by
  have ha : 0 < addrsBytes r := by unfold addrsBytes; split <;> decide
  have hb : ∀ l : List MicroStep, (∀ x ∈ l, x = .addrs ∨ 0 < x.bytes r) → m ∈ l → 0 < m.bytes r := by
    intro l hl hm
    rcases hl m hm with rfl | hx
    · exact ha
    · exact hx
  refine hb _ ?_ h
  cases i <;> simp [program, convertProgram, scratchProgram, MicroStep.bytes]

/-- The position of a machine that stands at a micro-step (R60). -/
theorem currentStep_eq_some_iff :
    s.currentStep = some m ↔
      ∃ i n, s.engine.op = some i ∧ s.engine.seq = .pos n ∧ (program s.params s.regs i)[n]? = some m := by
  unfold State.currentStep
  constructor
  · intro h
    split at h
    · exact ⟨_, _, ‹_›, ‹_›, h⟩
    · cases h
  · rintro ⟨i, n, ho, hs, hp⟩
    rw [ho, hs]
    exact hp

/-- A running command does not notice a change of STATUS that leaves DONE at 0 (R36). -/
theorem State.RunsStep.of_status (h : s.RunsStep m) {w : Word} (hr : t.regs = { s.regs with status := w })
    (he : t.engine = s.engine) (hp : t.params = s.params) (hd : t.done = false) : t.RunsStep m := by
  obtain ⟨i, n, ho, hs, hm⟩ := currentStep_eq_some_iff.1 h.current
  refine ⟨currentStep_eq_some_iff.2 ⟨i, n, ?_⟩, hd, ?_, ?_, ?_, ?_, ?_⟩
  · rw [he, hp, hr, program_of_status]
    exact ⟨ho, hs, hm⟩
  · rw [he]; exact h.bits
  · rw [he, hr, bytes_of_status]; exact h.bytes
  · rw [he, hp]; exact h.index
  · intro kd hk
    rw [he] at hk
    rw [h.kind kd hk]
    unfold State.nextSlot
    rw [he]
  · rw [he]; exact h.line

/-- A step that changes no part of the machine but STATUS, and neither BUSY nor, while busy, DONE (R35, R36). -/
theorem State.Inv.of_status (h : s.Inv) {w : Word} (hr : t.regs = { s.regs with status := w })
    (he : t.engine = s.engine) (hp : t.params = s.params) (hz : t.regs.ReservedZero) (hb : t.busy = s.busy)
    (hd : s.busy = true → t.done = false) : t.Inv where
  reserved := hz
  pollE := he ▸ h.pollE
  psc := he ▸ h.psc
  rest hi := by
    obtain ⟨hq, hs, hl⟩ := h.rest (hb ▸ hi)
    exact ⟨he ▸ hq, he ▸ hs, he ▸ hl⟩
  runs hi := by
    obtain ⟨m, hm⟩ := h.runs (hb ▸ hi)
    exact ⟨m, hm.of_status hr he hp (hd (hb ▸ hi))⟩

/-- BUSY excludes DONE (R36). -/
theorem State.Inv.done_of_busy (h : s.Inv) (hb : s.busy = true) : s.done = false := by
  obtain ⟨m, hm⟩ := h.runs hb
  exact hm.done

/-- What the next event is has no part in the invariant. -/
theorem taken_inv (h : s.Inv) : s.taken.Inv :=
  h.of_status (w := s.regs.status) rfl rfl rfl h.reserved rfl h.done_of_busy

/-- A machine that stands at micro-step m of its command, whatever its slot: what the parts of a tick keep. -/
structure State.AtStep (s : State) (m : MicroStep) : Prop where
  reserved : s.regs.ReservedZero
  pollE : s.engine.pollE < 2 ^ 32
  psc : s.engine.psc < 2 ^ 16
  busy : s.busy = true
  done : s.done = false
  current : s.currentStep = some m

theorem State.RunsStep.atStep (h : s.RunsStep m) (hi : s.Inv) (hb : s.busy = true) : s.AtStep m :=
  ⟨hi.reserved, hi.pollE, hi.psc, hb, h.done, h.current⟩

theorem State.AtStep.of_same (h : s.AtStep m) (hs : SameOutside s u) (hq : u.engine.seq = s.engine.seq)
    (he : u.engine.pollE < 2 ^ 32) (hp : u.engine.psc < 2 ^ 16) : u.AtStep m where
  reserved := hs.regs ▸ h.reserved
  pollE := he
  psc := hp
  busy := hs.busy ▸ h.busy
  done := by unfold State.done; rw [hs.regs]; exact h.done
  current := by unfold State.currentStep; rw [hs.op, hq, hs.params, hs.regs]; exact h.current

theorem State.AtStep.inv (h : s.AtStep m) (hm : s.RunsStep m) : s.Inv where
  reserved := h.reserved
  pollE := h.pollE
  psc := h.psc
  rest hi := absurd h.busy (by simp [hi])
  runs _ := ⟨m, hm⟩

/-- Between two slots only the counts of the micro-step matter (R61). -/
theorem State.AtStep.inv_between_slots (h : s.AtStep m) (hs : s.engine.slot = none) (hn : s.engine.nbit < 8)
    (hy : s.engine.nbyte < m.bytes s.regs) : s.Inv :=
  have hk : ∀ {P : SlotKind → Prop} kd, s.engine.slot = some kd → P kd := fun kd hkd => by simp [hs] at hkd
  h.inv ⟨h.current, h.done, hn, hy, hk, hk, hk⟩

/-- Acceptance puts the engine at the start of the first micro-step (R132). -/
theorem accept_inv (h : s.Inv) (ht : program s.params s.regs i ≠ []) : (s.accept i).Inv := by
  obtain ⟨m, l, hl⟩ := List.exists_cons_of_ne_nil ht
  have hprog : program (s.accept i).params (s.accept i).regs i = m :: l := by
    rw [← hl]
    exact program_of_status s.params s.regs _ i
  have hat : (s.accept i).AtStep m :=
    { reserved := (h.reserved.setStatus (i := bitBusy) (b := true) (by decide)).setStatus (i := bitDone) (by decide)
      pollE := Nat.two_pow_pos 32
      psc := Nat.two_pow_pos 16
      busy := accept_busy s i
      done := accept_done s i
      current := currentStep_eq_some_iff.2 ⟨i, 0, rfl, rfl, by rw [hprog]; rfl⟩ }
  exact hat.inv_between_slots rfl (Nat.zero_lt_succ 7) (program_bytes_pos _ _ (i := i) (by rw [hprog]; exact List.mem_cons_self))

/-- Every host access keeps the invariant (R84, R85, R131). -/
theorem HostDoes.inv {a : HostAccess} (hd : HostDoes a s t) (h : s.Inv) : t.Inv := by
  cases hd with
  | reads v ht =>
    subst ht
    exact h.of_status (w := s.regs.status) rfl rfl rfl h.reserved rfl h.done_of_busy
  | ignored ht =>
    subst ht
    exact h
  | violates hb ht =>
    subst ht
    refine h.of_status rfl rfl rfl (h.reserved.setStatus (by decide)) (setStatus_busy ..) fun hb => ?_
    rw [State.busyViolation, setStatus_done]
    exact h.done_of_busy hb
  | clears v _ ht =>
    subst ht
    refine h.of_status rfl rfl rfl (h.reserved.clearStatus v) (clearStatus_busy v s) fun hb => ?_
    have hdone := h.done_of_busy hb
    unfold State.done at hdone ⊢
    rw [clearStatus_getLsbD, hdone, Bool.false_and]
  | stores r v hb hc ht _ =>
    subst ht
    refine .of_rest (h.reserved.put (masked_reserved v r.mask)) h.pollE h.psc ?_ ?_
    · unfold State.busy at hb ⊢
      rw [put_rwIdle_status _ _ hc]
      exact hb
    · obtain ⟨hq, hs, hl⟩ := h.rest hb
      exact ⟨hq, hs, hl⟩
  | illegal hb ht _ =>
    subst ht
    have hz : s.illegalCommand.regs.ReservedZero :=
      (h.reserved.setStatus (i := errIllegalCode) (b := true) (by decide)).setStatus (i := bitDone) (by decide)
    exact h.of_status rfl rfl rfl hz (by simp [State.illegalCommand, errIllegalCode]) (by simp [hb])
  | accepts i _ hp ht _ =>
    subst ht
    exact accept_inv h hp
  | atOnce i hb _ ht _ =>
    subst ht
    exact complete_inv (h.reserved.setStatus (by decide)) h.pollE h.psc (h.rest hb).slot i
  | aborts _ ht =>
    subst ht
    exact abortRunning_inv h

/-! ### The parts of a tick -/

@[simp] theorem countBit_seq (s : State) : s.countBit.engine.seq = s.engine.seq := by
  unfold State.countBit; split <;> rfl

@[simp] theorem countBit_pollE (s : State) : s.countBit.engine.pollE = s.engine.pollE := by
  unfold State.countBit; split <;> rfl

/-- Eight bits make one byte (R61, R172). -/
theorem countBit_counts (h : s.engine.nbit < 8) :
    s.countBit.engine.nbit < 8 ∧ s.countBit.engine.nbyte ≤ s.engine.nbyte + 1 := by
  unfold State.countBit
  split <;> constructor <;> dsimp only <;> omega

@[simp] theorem deliver_seq (m : MicroStep) (s : State) : (s.deliver m).engine.seq = s.engine.seq := by
  cases m <;> simp [State.deliver, State.takePresence, State.shiftOut, State.shiftIn]

@[simp] theorem deliver_pollE (m : MicroStep) (s : State) : (s.deliver m).engine.pollE = s.engine.pollE := by
  cases m <;> simp [State.deliver, State.takePresence, State.shiftOut, State.shiftIn]

/-- A micro-step that has not finished has bytes left to move (R172, R173, R190). -/
theorem deliver_counts (hn : s.engine.nbit < 8) (hy : s.engine.nbyte < m.bytes s.regs) :
    (s.deliver m).engine.nbit < 8 ∧
      ((s.deliver m).stepFinished m = false → (s.deliver m).engine.nbyte < m.bytes s.regs) := by
  have hcount : ∀ {v : State}, v.engine.nbit = s.engine.nbit → v.engine.nbyte = s.engine.nbyte →
      v.countBit.engine.nbit < 8 ∧
        ((v.countBit.engine.nbyte == m.bytes s.regs) = false → v.countBit.engine.nbyte < m.bytes s.regs) := by
    intro v hv1 hv2
    obtain ⟨h1, h2⟩ := countBit_counts (s := v) (by omega)
    refine ⟨h1, fun hne => ?_⟩
    rw [beq_eq_false_iff_ne] at hne
    omega
  cases m
  case wb => exact hcount rfl rfl
  case rb => exact hcount rfl rfl
  case addrs =>
    unfold State.stepFinished
    rw [(deliver_same .addrs s).regs]
    exact hcount rfl rfl
  all_goals exact ⟨hn, fun _ => hy⟩

/-- After the last slot of a micro-step: the next micro-step, or the end of the command (R60, R134). -/
theorem advance_inv (h : s.AtStep m) (hs : s.engine.slot = none) : s.advance.Inv := by
  obtain ⟨i, n, ho, hq, hm⟩ := currentStep_eq_some_iff.1 h.current
  unfold State.advance
  rw [ho, hq]
  dsimp only
  split
  · rename_i hlt
    have hnext : (program s.params s.regs i)[n + 1]? = some (program s.params s.regs i)[n + 1] :=
      List.getElem?_eq_getElem hlt
    have hat : (s.enterStep (n + 1)).AtStep (program s.params s.regs i)[n + 1] :=
      ⟨h.reserved, Nat.two_pow_pos 32, h.psc, h.busy, h.done, currentStep_eq_some_iff.2 ⟨i, n + 1, ho, rfl, hnext⟩⟩
    exact hat.inv_between_slots hs (Nat.zero_lt_succ 7) (program_bytes_pos _ _ (List.getElem_mem hlt))
  · exact complete_inv h.reserved h.pollE h.psc hs i

/-- The end of a slot keeps the invariant (R138). -/
theorem endSlot_inv (h : s.AtStep m) (hn : s.engine.nbit < 8) (hy : s.engine.nbyte < m.bytes s.regs) :
    (s.endSlot m).Inv := by
  unfold State.endSlot
  dsimp only
  generalize hv : ({ s with engine := { s.engine with slot := none, k := 0 } } : State) = v
  have hsv : SameOutside s v := by subst hv; exact ⟨rfl, rfl, rfl, rfl, rfl⟩
  have hd : (v.deliver m).AtStep m := by
    refine h.of_same (hsv.trans (deliver_same m v)) ?_ ?_ ?_
    · rw [deliver_seq]; subst hv; rfl
    · rw [deliver_pollE]; subst hv; exact h.pollE
    · rw [(deliver_pin m v).psc]; subst hv; exact h.psc
  have hslot : (v.deliver m).engine.slot = none := by rw [deliver_slot]; subst hv; rfl
  obtain ⟨hbit, hbyte⟩ := deliver_counts (s := v) (m := m) (by subst hv; exact hn) (by subst hv; exact hy)
  split
  · exact raise_inv hd.reserved hd.pollE hd.psc .absent
  · split
    · exact advance_inv hd hslot
    · rename_i hf
      refine hd.inv_between_slots hslot hbit ?_
      rw [(deliver_same m v).regs]
      exact hbyte (by simpa using hf)

/-- The counting part of a tick: the line, the index and the prescaler are set, and only the sample, the poll's counters
and the environment's levels can change beside them (R138, R193). -/
theorem slotTick_pollCount_eq (m : MicroStep) (kd : SlotKind) (s : State) :
    ∃ (sampled hit : Bool) (e : Nat) (l : List Bool) (d : Nat),
      (s.slotTick m kd).pollCount m = { s with
        engine := { s.engine with drive := kd.drivesLow s.engine.k, k := s.engine.k + 1, psc := 0, sampled := sampled, pollHit := hit, pollE := e }
        levels := l
        draws := d } ∧
      (s.engine.pollE < 2 ^ 32 → e < 2 ^ 32) := by
  unfold State.pollCount State.slotTick
  dsimp only
  split <;> split <;> exact ⟨_, _, _, _, _, rfl, by dsimp only [State.sample, State.driveLine]; omega⟩

/-- A tick of slot kd that starts with the slot's index in range (R138). -/
theorem runTick_inv (h : s.AtStep m) (hn : s.engine.nbit < 8) (hy : s.engine.nbyte < m.bytes s.regs)
    (hs : s.engine.slot = some kd) (hk : s.engine.k < kd.length s.params) (hkind : kd = s.nextSlot m) :
    (s.runTick m kd).Inv := by
  obtain ⟨sampled, hit, e, l, d, heq, he⟩ := slotTick_pollCount_eq m kd s
  unfold State.runTick
  rw [heq]
  generalize hv : State.mk .. = v
  have hat : v.AtStep m := by
    subst hv
    exact h.of_same ⟨rfl, rfl, rfl, rfl, rfl⟩ rfl (he h.pollE) (Nat.two_pow_pos 16)
  dsimp only
  split
  · exact raise_inv hat.reserved hat.pollE hat.psc .timeout
  · subst hv
    split
    · exact endSlot_inv hat hn hy
    · rename_i hne
      have hone : ∀ {P : SlotKind → Prop}, P kd → ∀ kd', s.engine.slot = some kd' → P kd' := by
        rintro P hP kd' hk'
        rw [hs] at hk'
        cases hk'
        exact hP
      exact hat.inv ⟨hat.current, h.done, hn, hy, hone ⟨Nat.succ_pos _, by dsimp only at hne ⊢; omega⟩, hone hkind, hone rfl⟩

theorem SlotKind.length_pos (p : Params) (kd : SlotKind) : 0 < kd.length p := by
  cases kd <;> simp [SlotKind.length, slotTicks]

/-- An engine tick keeps the invariant: it begins a slot where none is in progress, and runs its tick (R138). -/
theorem engineTick_inv (hi : s.Inv) (h : engineTick s = .next t) : t.Inv := by
  cases hb : s.busy with
  | false =>
    obtain ⟨-, rfl⟩ | ⟨hb', -⟩ := engineTick_cases h
    · exact hi
    · simp [hb] at hb'
  | true =>
    obtain ⟨m, hm⟩ := hi.runs hb
    have hat := hm.atStep hi hb
    cases hs : s.engine.slot with
    | some kd =>
      rw [engineTick_of_slot hb hm.current hs] at h
      cases h
      exact runTick_inv hat hm.bits hm.bytes hs (hm.index kd hs).2 (hm.kind kd hs)
    | none =>
      obtain ⟨x, kd, hx, hkd, heq⟩ := beginSlot_of_none (m := m) hs
      have hbegun : (s.beginSlot m).AtStep m := by
        refine hat.of_same (beginSlot_same m s) ?_ ?_ ?_ <;> rw [heq]
        · exact hi.pollE
        · exact hi.psc
      have hkind : kd = (s.beginSlot m).nextSlot m := by
        rw [hkd, heq]
        unfold State.nextSlot
        rw [hx]
      have hslot : (s.beginSlot m).engine.slot = some kd := by rw [heq]
      rw [(engineTick_beginSlot hb hm.current hs).1, engineTick_of_slot hbegun.busy hbegun.current hslot] at h
      cases h
      refine runTick_inv hbegun ?_ ?_ hslot ?_ hkind <;> rw [heq]
      · exact hm.bits
      · exact hm.bytes
      · exact kd.length_pos s.params

/-- A clock cycle inside a tick moves the prescaler, which stays within TICKDIV's 16 bits (R44, R130). -/
theorem psc_inv (hi : s.Inv) {x : Nat} (hx : x < s.regs.tickCycles) :
    ({ s with engine := { s.engine with psc := x } } : State).Inv where
  reserved := hi.reserved
  pollE := hi.pollE
  psc := by
    have : (low 16 s.regs.tickdiv).toNat < 2 ^ 16 := BitVec.isLt _
    unfold Regs.tickCycles at hx
    show x < 2 ^ 16
    omega
  rest hb := by
    obtain ⟨hq, hs, hl⟩ := hi.rest hb
    exact ⟨hq, hs, hl⟩
  runs hb := by
    obtain ⟨m, hm⟩ := hi.runs hb
    exact ⟨m, hm.current, hm.done, hm.bits, hm.bytes, hm.index, hm.kind, hm.line⟩

theorem runEvent_inv {e : Event} (hi : s.Inv) (h : runEvent e s = .next t) : t.Inv := by
  cases e with
  | host a => exact (hostStep_cases h).inv hi
  | tick => exact engineTick_inv hi h
  | clk =>
    obtain ⟨-, rfl⟩ | ⟨-, hc, rfl⟩ | ⟨-, ht⟩ := clockEvent_cases h
    · exact hi
    · exact psc_inv hi hc
    · exact engineTick_inv hi ht
  | rst a =>
    cases h
    exact inv_of_reset rfl rfl

/-- Settles O39: every event keeps the invariant, a host access by `HostDoes.inv` and a tick by `engineTick_inv`. -/
theorem everyStepKeepsTheInvariant : Obligations.EveryStepKeepsTheInvariant := by
  unfold Obligations.EveryStepKeepsTheInvariant
  intro s t hi h
  rw [step_eq] at h
  exact runEvent_inv (taken_inv hi) h

/-- Settles O38: the registers and the engine at reset are their reset values (R70). -/
theorem resetMeetsTheInvariant : Obligations.ResetMeetsTheInvariant :=
  inv_of_reset rfl rfl

end Sys2Proof.Machine
end

section
/-! PROOF of O41, O45 and O47. Which registers a step can write: STATUS, an RW-idle register of an idle machine, or what a
command commits. -/

namespace Sys2Proof.Machine

variable {s t : State}

/-- What a step that is no reset cycle can do to the registers other than STATUS (R31, R133). -/
inductive Writes (s t : State) : Prop where
  /-- No register but STATUS changes. -/
  | statusOnly (h : t.regs = { s.regs with status := t.regs.status })
  /-- An idle write to an RW-idle register (R31). -/
  | stores (r : Reg) (v : Word) (idle : s.busy = false) (cls : r.accessClass = .rwIdle) (h : t.regs = s.regs.put v r)
  /-- The commit of command i, NOP or DECODE in the presenting step, or the running command in its last tick (R134). -/
  | commits (i : Instr) (u : State) (h : u.regs = { s.regs with status := u.regs.status })
      (which : (s.busy = false ∧ (i = .nop ∨ i = .decode)) ∨ (s.busy = true ∧ s.engine.op = some i))
      (ends : t = u.complete i)

theorem HostDoes.writes {a : HostAccess} (h : HostDoes a s t) : Writes s t := by
  cases h with
  | reads v h => exact .statusOnly (by rw [h])
  | ignored h => exact .statusOnly (by rw [h])
  | violates _ h => exact .statusOnly (by rw [h]; rfl)
  | clears v _ h => exact .statusOnly (by rw [h]; rfl)
  | stores r v hb hc h _ => exact .stores r _ hb hc (by rw [h])
  | illegal _ h => exact .statusOnly (by rw [h]; rfl)
  | accepts i _ _ h => exact .statusOnly (by rw [h]; rfl)
  | atOnce i hb hi h _ => exact .commits i (s.setStatus bitDone false) rfl (.inl ⟨hb, hi⟩) h
  | aborts _ h => exact .statusOnly (by rw [h]; rfl)

/-- An error end commits no register but STATUS (R245). -/
theorem raise_regs (e : RunError) (s : State) : (s.raise e).regs = { s.regs with status := (s.raise e).regs.status } := by
  unfold State.raise
  cases s.engine.presValid <;> rfl

theorem TickEnds.writes {m : MicroStep} (hb : s.busy = true) (h : TickEnds m s t) : Writes s t := by
  cases h with
  | goesOn h => exact .statusOnly (by rw [h.regs])
  | completes u i h op _ ends => exact .commits i u (by rw [h.regs]) (.inr ⟨hb, op⟩) ends
  | raises u e h _ ends => exact .statusOnly (by rw [ends, raise_regs, h.regs])

theorem Writes.of_taken (h : Writes s.taken t) : Writes s t := by
  cases h with
  | statusOnly h => exact .statusOnly h
  | stores r v hb hc h => exact .stores r v hb hc h
  | commits i u h which ends => exact .commits i u h which ends

theorem step_writes (h : step s = .next t) : (∃ a, s.nextEvent = .rst a) ∨ Writes s t := by
  obtain ⟨a, ha, -⟩ | ⟨_, -, hHost⟩ | ⟨-, rfl⟩ | ⟨-, -, rfl⟩ | ⟨hb, _, -, hTick⟩ := step_cases h
  · exact .inl ⟨a, ha⟩
  · exact .inr hHost.writes.of_taken
  · exact .inr (.statusOnly rfl)
  · exact .inr (.statusOnly rfl)
  · exact .inr (TickEnds.writes (s := s.taken) hb hTick).of_taken

/-! ### The operand registers -/

/-- The registers a command reads beside DATA and RAW: no commit writes them (R133). -/
structure Regs.SameOperands (a b : Regs) : Prop where
  ctrl : b.ctrl = a.ctrl
  addrLo : b.addrLo = a.addrLo
  addrHi : b.addrHi = a.addrHi
  convTimeout : b.convTimeout = a.convTimeout
  tickdiv : b.tickdiv = a.tickdiv

theorem complete_sameOperands (s : State) (i : Instr) : s.regs.SameOperands (s.complete i).regs := by
  cases i <;> exact ⟨rfl, rfl, rfl, rfl, rfl⟩

theorem Writes.sameOperands (hb : s.busy = true) (h : Writes s t) : s.regs.SameOperands t.regs := by
  cases h with
  | statusOnly h => rw [h]; exact ⟨rfl, rfl, rfl, rfl, rfl⟩
  | stores _ _ hi => simp [hi] at hb
  | commits i u h _ ends =>
    obtain ⟨h1, h2, h3, h4, h5⟩ := complete_sameOperands u i
    rw [h] at h1 h2 h3 h4 h5
    rw [ends]
    exact ⟨h1, h2, h3, h4, h5⟩

/-- Settles O41: a busy machine drops the host's writes, and no commit writes an operand register. -/
theorem operandsAreFrozenWhileBusy : Obligations.OperandsAreFrozenWhileBusy := by
  unfold Obligations.OperandsAreFrozenWhileBusy
  intro s t hb h hr
  rcases step_writes h with ⟨a, ha⟩ | hw
  · exact absurd ha (hr a)
  · obtain ⟨h1, h2, h3, h4, h5⟩ := hw.sameOperands hb
    exact ⟨h1, h2, h3, h4, h5⟩

/-! ### ROM -/

theorem complete_rom (s : State) {i : Instr} (hi : i ≠ .readRom) :
    (s.complete i).regs.romLo = s.regs.romLo ∧ (s.complete i).regs.romHi = s.regs.romHi := by
  cases i
  case readRom => exact absurd rfl hi
  all_goals exact ⟨rfl, rfl⟩

theorem Writes.rom (h : Writes s t) :
    (t.regs.romLo = s.regs.romLo ∧ t.regs.romHi = s.regs.romHi) ∨
      (s.busy = true ∧ s.engine.op = some .readRom ∧ t.busy = false ∧ t.done = true) := by
  cases h with
  | statusOnly h => exact .inl (by rw [h]; exact ⟨rfl, rfl⟩)
  | stores r v _ hc h =>
    rw [h]
    exact .inl ⟨put_rwIdle_get s.regs v (y := .romLo) hc (by decide),
      put_rwIdle_get s.regs v (y := .romHi) hc (by decide)⟩
  | commits i u h which ends =>
    by_cases hi : i = .readRom
    · subst hi
      rcases which with ⟨-, hn | hn⟩ | ⟨hb, hop⟩
      · cases hn
      · cases hn
      · rw [ends]
        exact .inr ⟨hb, hop, complete_busy u _, endCommand_done _⟩
    · obtain ⟨h1, h2⟩ := complete_rom u hi
      rw [h] at h1 h2
      rw [ends]
      exact .inl ⟨h1, h2⟩

/-- Settles O45: ROM is read only, and only the commit of READ_ROM writes it. -/
theorem onlyReadRomWritesRom : Obligations.OnlyReadRomWritesRom := by
  unfold Obligations.OnlyReadRomWritesRom
  intro s t h hne
  rcases step_writes h with hr | hw
  · exact .inl hr
  · rcases hw.rom with ⟨h1, h2⟩ | hc
    · rcases hne with hne | hne
      · exact absurd h1 hne
      · exact absurd h2 hne
    · exact .inr hc

/-! ### The temperature registers -/

/-- A completion writes both result registers or neither (R133, R212). -/
theorem complete_temp (s : State) (i : Instr) :
    ((s.complete i).regs.tempWhole = s.regs.tempWhole ∧ (s.complete i).regs.tempFrac = s.regs.tempFrac) ∨
      ((s.complete i).regs.tempWhole = (s.complete i).regs.reading.wholeWord ∧
        (s.complete i).regs.tempFrac = (s.complete i).regs.reading.fracWord) := by
  cases i
  case decode => exact .inr ⟨rfl, rfl⟩
  case readScratch => exact .inr ⟨rfl, rfl⟩
  case readTemp => exact .inr ⟨rfl, rfl⟩
  all_goals exact .inl ⟨rfl, rfl⟩

theorem Writes.temp (h : Writes s t) :
    (t.regs.tempWhole = s.regs.tempWhole ∧ t.regs.tempFrac = s.regs.tempFrac) ∨
      (t.regs.tempWhole = t.regs.reading.wholeWord ∧ t.regs.tempFrac = t.regs.reading.fracWord) := by
  cases h with
  | statusOnly h => exact .inl (by rw [h]; exact ⟨rfl, rfl⟩)
  | stores r v _ hc h =>
    rw [h]
    exact .inl ⟨put_rwIdle_get s.regs v (y := .tempWhole) hc (by decide),
      put_rwIdle_get s.regs v (y := .tempFrac) hc (by decide)⟩
  | commits i u h _ ends =>
    rw [ends]
    rcases complete_temp u i with ⟨h1, h2⟩ | hread
    · rw [h1, h2, h]
      exact .inl ⟨rfl, rfl⟩
    · exact .inr hread

/-- Settles O47: only a commit writes the result registers, and it writes the decode of the RAW it leaves. -/
theorem temperatureRegistersHoldAReading : Obligations.TemperatureRegistersHoldAReading := by
  unfold Obligations.TemperatureRegistersHoldAReading
  intro s t h hne
  rcases step_writes h with hr | hw
  · exact .inl hr
  · rcases hw.temp with ⟨h1, h2⟩ | hread
    · rcases hne with hne | hne
      · exact absurd h1 hne
      · exact absurd h2 hne
    · exact .inr hread

end Sys2Proof.Machine
end

section
/-! PROOF of O44 and O46. The bits of STATUS a step can clear or change: the error bits and PRESENT. -/

namespace Sys2Proof.Machine

variable {s t : State}

/-! ### The bits of STATUS through the shared operations -/

theorem setStatus_getLsbD_of_ne (s : State) {i j : Nat} (b : Bool) (h : j ≠ i) :
    (s.setStatus i b).regs.status.getLsbD j = s.regs.status.getLsbD j := by
  rw [setStatus_status, getLsbD_setBit, if_neg fun e => h e.1]

/-- Setting a bit clears none. -/
theorem setStatus_true_keeps (i : Nat) {j : Nat} (h : s.regs.status.getLsbD j = true) :
    (s.setStatus i true).regs.status.getLsbD j = true := by
  rw [setStatus_status, getLsbD_setBit, h, ite_self]

/-- The end of a command writes BUSY and DONE alone (R134). -/
theorem endCommand_getLsbD (s : State) {j : Nat} (h : 2 ≤ j) :
    s.endCommand.regs.status.getLsbD j = s.regs.status.getLsbD j := by
  unfold State.endCommand
  rw [setStatus_getLsbD_of_ne _ _ (by simp only [bitDone]; omega), setStatus_getLsbD_of_ne _ _ (by simp only [bitBusy]; omega)]

/-- Of STATUS a commit writes PRESENT alone, and only after a command with a reset slot (R47, R133). -/
theorem commit_status_cases (s : State) (i : Instr) :
    (s.commit i).regs.status = s.regs.status ∨
      (i ∈ [Instr.reset, .convert, .readScratch, .readTemp] ∧
        (s.commit i).regs.status = s.commitPresent.regs.status) := by
  cases i
  case reset => exact .inr ⟨by decide, rfl⟩
  case convert => exact .inr ⟨by decide, rfl⟩
  case readScratch => exact .inr ⟨by decide, rfl⟩
  case readTemp => exact .inr ⟨by decide, rfl⟩
  all_goals exact .inl rfl

/-- No completion writes an error bit (R253). -/
theorem complete_getLsbD (s : State) (i : Instr) {j : Nat} (h : 3 ≤ j) :
    (s.complete i).regs.status.getLsbD j = s.regs.status.getLsbD j := by
  rw [State.complete, endCommand_getLsbD _ (by omega)]
  rcases commit_status_cases s i with hs | ⟨-, hs⟩
  · rw [hs]
  · rw [hs, State.commitPresent, setStatus_getLsbD_of_ne _ _ (by simp only [bitPresent]; omega)]

/-- An error end adds one error bit and clears none (R245). -/
theorem raise_keeps_error (e : RunError) {j : Nat} (hj : 3 ≤ j) (h : s.regs.status.getLsbD j = true) :
    (s.raise e).regs.status.getLsbD j = true := by
  have hp : (if s.engine.presValid then s.commitPresent else s).regs.status.getLsbD j = true := by
    split
    · rw [State.commitPresent, setStatus_getLsbD_of_ne _ _ (by simp only [bitPresent]; omega)]
      exact h
    · exact h
  unfold State.raise
  rw [endCommand_getLsbD _ (by omega)]
  exact setStatus_true_keeps e.code hp

/-! ### The error bits -/

theorem TickEnds.keeps_error {m : MicroStep} (ht : TickEnds m s t) {j : Nat} (hj : 3 ≤ j)
    (h : s.regs.status.getLsbD j = true) : t.regs.status.getLsbD j = true := by
  cases ht with
  | goesOn hs => rw [hs.regs]; exact h
  | completes u i hs _ _ ends => rw [ends, complete_getLsbD u i hj, hs.regs]; exact h
  | raises u e hs _ ends =>
    rw [ends]
    exact raise_keeps_error e hj (by rw [hs.regs]; exact h)

theorem HostDoes.keeps_error {a : HostAccess} (hd : HostDoes a s t) {j : Nat} (hj : 3 ≤ j)
    (h : s.regs.status.getLsbD j = true) (hv : ∀ v, a = .write 4 0x08 v → v.getLsbD j = false) :
    t.regs.status.getLsbD j = true := by
  cases hd with
  | reads v ht => rw [ht]; exact h
  | ignored ht => rw [ht]; exact h
  | violates _ ht => rw [ht]; exact setStatus_true_keeps _ h
  | clears v acc ht => rw [ht, clearStatus_getLsbD, h, hv v acc]; rfl
  | stores r v _ hc ht _ =>
    rw [ht, put_rwIdle_status _ _ hc]
    exact h
  | illegal _ ht _ => rw [ht]; exact setStatus_true_keeps _ (setStatus_true_keeps _ h)
  | accepts i _ _ ht _ =>
    have h1 : j ≠ bitDone := by simp only [bitDone]; omega
    rw [ht, accept_status, getLsbD_setBit, if_neg fun e => h1 e.1]
    exact setStatus_true_keeps bitBusy h
  | atOnce i _ _ ht _ =>
    rw [ht, complete_getLsbD _ i hj, setStatus_getLsbD_of_ne _ _ (by simp only [bitDone]; omega)]
    exact h
  | aborts _ ht =>
    rw [ht]
    refine setStatus_true_keeps _ ?_
    rw [endCommand_getLsbD _ (by omega)]
    exact h

/-- Settles O44: what a step can do (`step_cases`) clears an error bit only by a write of 1 to it. -/
theorem errorBitsAreSticky : Obligations.ErrorBitsAreSticky := by
  unfold Obligations.ErrorBitsAreSticky
  intro s t b hb hs h hr hv
  have hj : 3 ≤ b := (by decide : ∀ j ∈ [3, 4, 5, 6, 7], 3 ≤ j) b hb
  obtain ⟨a, ha, -⟩ | ⟨a, ha, hHost⟩ | ⟨-, rfl⟩ | ⟨-, -, rfl⟩ | ⟨-, _, -, hTick⟩ := step_cases h
  · exact absurd ha (hr a)
  · exact hHost.keeps_error hj hs fun v e => hv v (by rw [ha, e])
  · exact hs
  · exact hs
  · exact hTick.keeps_error hj hs

/-! ### PRESENT -/

/-- No host access writes PRESENT (R35, R47). -/
theorem HostDoes.present {a : HostAccess} (hd : HostDoes a s t) : t.present = s.present := by
  unfold State.present
  cases hd with
  | reads v ht => rw [ht]
  | ignored ht => rw [ht]
  | violates _ ht => rw [ht]; exact setStatus_getLsbD_of_ne s true (by decide)
  | clears v _ ht => rw [ht, clearStatus_getLsbD]; simp
  | stores r v _ hc ht _ => rw [ht, put_rwIdle_status _ _ hc]
  | illegal _ ht _ =>
    rw [ht, State.illegalCommand, setStatus_getLsbD_of_ne _ _ (by decide), setStatus_getLsbD_of_ne _ _ (by decide)]
  | accepts i _ _ ht _ => rw [ht, accept_status]; simp
  | atOnce i _ hi ht _ =>
    have hc : ((s.setStatus bitDone false).commit i).regs.status = (s.setStatus bitDone false).regs.status := by
      rcases hi with rfl | rfl <;> rfl
    rw [ht, State.complete, endCommand_getLsbD _ (by decide), hc, setStatus_getLsbD_of_ne _ _ (by decide)]
  | aborts _ ht =>
    rw [ht, State.abortRunning, setStatus_getLsbD_of_ne _ _ (by decide), endCommand_getLsbD _ (by decide), dropSlot_regs]

/-- Only the conversion commands run the micro-steps that raise an error (R133, R191, R193). -/
theorem mem_conversion_of_rstc_or_poll {p : Params} {r : Regs} {i : Instr} {m : MicroStep} (h : m ∈ program p r i)
    (hm : m = .rstc ∨ m = .poll) : i ∈ [Instr.convert, .readScratch, .readTemp] := by
  cases i
  case convert => decide
  case readScratch => decide
  case readTemp => decide
  all_goals rcases hm with rfl | rfl <;> simp [program] at h

theorem TickEnds.present {m : MicroStep} (ht : TickEnds m s t) (hm : s.currentStep = some m)
    (hne : t.present ≠ s.present) :
    t.busy = false ∧ ∃ i, s.engine.op = some i ∧ i ∈ [Instr.reset, .convert, .readScratch, .readTemp] := by
  cases ht with
  | goesOn hs => exact absurd (by unfold State.present; rw [hs.regs]) hne
  | completes u i hs op _ ends =>
    subst ends
    refine ⟨complete_busy u i, i, op, ?_⟩
    rcases commit_status_cases u i with hc | ⟨hi, -⟩
    · refine absurd ?_ hne
      unfold State.present
      rw [State.complete, endCommand_getLsbD _ (by decide), hc, hs.regs]
    · exact hi
  | raises u e _ of ends =>
    obtain ⟨i, n, op, -, hp⟩ := currentStep_eq_some_iff.1 hm
    have hi := mem_conversion_of_rstc_or_poll (List.mem_of_getElem? hp) (of.imp And.right And.right)
    exact ⟨ends ▸ raise_busy u e, i, op, List.mem_cons_of_mem _ hi⟩

/-- Settles O46: only the commit of a command with a reset slot and an error end write PRESENT, and an error ends only
such a command. -/
theorem onlyResetSlotCommandsWritePresent : Obligations.OnlyResetSlotCommandsWritePresent := by
  unfold Obligations.OnlyResetSlotCommandsWritePresent
  intro s t _ h hne
  obtain ⟨a, ha, -⟩ | ⟨_, -, hHost⟩ | ⟨-, rfl⟩ | ⟨-, -, rfl⟩ | ⟨hb, m, hm, hTick⟩ := step_cases h
  · exact .inl ⟨a, ha⟩
  · exact absurd hHost.present hne
  · exact absurd rfl hne
  · exact absurd rfl hne
  · obtain ⟨ht, hi⟩ := hTick.present hm hne
    exact .inr ⟨hb, ht, hi⟩

end Sys2Proof.Machine
end

section
/-! PROOF of O7, O9, O10 and O13. What one host write does to an idle register, to STATUS and to the offsets that ignore it
(R31, R85), and the values after reset (R70). -/

namespace Sys2Proof.Machine

variable {s : State} {rest : List Event} {v : Word}

theorem regAt_of_off (r : Reg) : regAt r.off = some r := by
  cases r <;> rfl

theorem off_aligned (r : Reg) : r.off.extractLsb' 0 2 = 0#2 := by
  cases r <;> rfl

/-- A step whose event is a write to a register (R85). -/
theorem step_writeReg (r : Reg) (h : s.pending = .host (.write 4 r.off v) :: rest) :
    step s = writeReg r v { s with pending := rest } := by
  rw [step_cons h]
  exact hostStep_writeReg (regAt_of_off r) (off_aligned r) v _

/-- An idle write stores the defined bits (R31, R85). -/
theorem step_idleWrite {r : Reg} (hc : r.accessClass = .rwIdle) (hb : s.busy = false)
    (h : s.pending = .host (.write 4 r.off v) :: rest) :
    step s = .next { s with pending := rest, regs := s.regs.put (v &&& r.mask) r } := by
  have hb' : ¬ ({ s with pending := rest } : State).busy = true := by
    rw [show ({ s with pending := rest } : State).busy = false from hb]
    decide
  rw [step_writeReg r h, writeReg, hc]
  dsimp only
  rw [State.writeIdle, if_neg hb']

/-- Settles O7: each of the seven registers is RW-idle and has the listed offset and mask. -/
theorem idleWriteStoresDefinedBits : Obligations.IdleWriteStoresDefinedBits := by
  unfold Obligations.IdleWriteStoresDefinedBits
  intro s rest r off mask v hmem hb hp
  have hr : off = r.off ∧ mask = r.mask ∧ r.accessClass = .rwIdle := by
    simp only [List.mem_cons, Prod.mk.injEq, List.not_mem_nil, or_false] at hmem
    rcases hmem with ⟨rfl, rfl, rfl⟩ | ⟨rfl, rfl, rfl⟩ | ⟨rfl, rfl, rfl⟩ | ⟨rfl, rfl, rfl⟩ | ⟨rfl, rfl, rfl⟩ |
      ⟨rfl, rfl, rfl⟩ | ⟨rfl, rfl, rfl⟩ <;> exact ⟨rfl, rfl, rfl⟩
  obtain ⟨rfl, rfl, hc⟩ := hr
  have hcmd : r ≠ .cmd := fun e => by rw [e] at hc; cases hc
  exact ⟨_, step_idleWrite hc hb hp, get_put_same _ _ r hcmd, fun x hx => get_put_other _ _ r x hx.symm,
    rfl, rfl, rfl, rfl, rfl, rfl⟩

/-- Settles O9: the write-one-to-clear rule bit by bit (`clearStatus_getLsbD`). -/
theorem statusWriteClearsWrittenOnes : Obligations.StatusWriteClearsWrittenOnes := by
  unfold Obligations.StatusWriteClearsWrittenOnes
  intro s rest v hp
  refine ⟨(s.clearStatus v).regs.status, step_writeReg .status hp, fun j => ?_⟩
  rw [clearStatus_getLsbD]
  by_cases hj : j ∈ [1, 3, 4, 5, 6, 7]
  · cases v.getLsbD j <;> simp [hj]
  · simp [hj]

/-- A write where no register stands, or a read-only one, has no effect (R45, R85). -/
theorem memWrite_ignored {off : Offset} (h : ∀ r ∈ regAt off, r.accessClass = .ro) (v : Word) (s : State) :
    memWrite off v s = .next s := by
  unfold memWrite
  split
  · rename_i r hr
    rw [writeReg, h r hr]
  · rfl

/-- Settles O10: the seven offsets are aligned and hold a read-only register or none. -/
theorem readOnlyAndUnmappedWritesAreIgnored : Obligations.ReadOnlyAndUnmappedWritesAreIgnored := by
  unfold Obligations.ReadOnlyAndUnmappedWritesAreIgnored
  intro s rest off v hmem hp
  have hoff : ∀ o ∈ [(0x18 : Offset), 0x1C, 0x24, 0x28, 0x34, 0x38, 0x3C],
      o.extractLsb' 0 2 = 0#2 ∧ ∀ r ∈ regAt o, r.accessClass = .ro := by decide
  obtain ⟨ha, hro⟩ := hoff off hmem
  rw [step_cons hp]
  exact (hostStep_write ha v _).trans (memWrite_ignored hro v _)

/-- `TICKDIV_RESET` is in 1..65535 (R12). -/
theorem tickdivReset_ne_zero : Config.tickdivReset ≠ 0 := by
  unfold Config.tickdivReset
  split
  · decide
  · assumption

theorem regs_reset_get (p : Params) {r : Reg} (hc : r ≠ .convTimeout) (ht : r ≠ .tickdiv) : (Regs.reset p).get r = 0 := by
  cases r
  case convTimeout => exact absurd rfl hc
  case tickdiv => exact absurd rfl ht
  all_goals rfl

/-- Settles O13: the fields of `Regs.reset` and `Engine.reset`, and the range of `TICKDIV_RESET`. -/
theorem resetLeavesTheListedValues : Obligations.ResetLeavesTheListedValues :=
  ⟨fun _ hc ht => regs_reset_get _ hc ht, rfl, rfl, tickdivReset_ne_zero,
    rfl, rfl, rfl, rfl, rfl, rfl, rfl, rfl, rfl, rfl, rfl, rfl, rfl, rfl, rfl⟩

end Sys2Proof.Machine
end

section
/-! PROOF of O34. The head that phase 1 and phase 2 of the conversion exchange share (R195, R196), then an unbounded poll
(R106, R193). -/

namespace Sys2Proof.Machine

variable {b s : State} {i : Instr} {n c : Nat} {e : Progress} {x : Byte} {m : MicroStep} {l : List MicroStep}

theorem bytesSlots_append_singleton (bs : List Byte) (x : Byte) : bytesSlots (bs ++ [x]) = bytesSlots bs ++ byteSlots x := by
  simp only [bytesSlots, List.flatMap_append, List.flatMap_singleton]

/-- The reset slot of RSTC with a device present, the addressing step and one command byte lead to the micro-step after
them, with one sample taken (R190, R195, R196). -/
theorem exchangeHead_runs (h : Stands b i n c e s) (hb : b.busy = true) (he : e.pollE < 2 ^ 32)
    (hp : (program b.params b.regs i).drop n = .rstc :: .addrs :: .wb x :: m :: l) (hl : b.levelAt c = false) :
    ∃ v y, Stands b i (n + 3) (c + 1) { e.next with sr := y, pres := true, presValid := true } v ∧
      TicksTo (960 + addrsTicks b.params b.regs + byteTicks b.params) s v
        (slotWaves b.params (.rst :: bytesSlots (addrsList b.params b.regs ++ [x]))) := by
  have hlen : n + 3 < (program b.params b.regs i).length := by
    have := congrArg List.length hp
    simp only [List.length_drop, List.length_cons] at this
    omega
  have hget : ∀ j, (program b.params b.regs i)[n + j]? = (.rstc :: .addrs :: .wb x :: m :: l : List MicroStep)[j]? :=
    fun j => by rw [← hp, List.getElem?_drop]
  obtain ⟨u₁, hu₁, hrst⟩ := rstc_slot h hb he (hget 0)
  rw [hl, if_neg Bool.false_ne_true] at hrst
  rw [hl] at hu₁
  have hs₁ := advance_stands hu₁ (by omega)
  obtain ⟨u₂, y₂, hu₂, haddr⟩ := addrs_runs hs₁ hb (by decide : 0 < 2 ^ 32) (hget 1) rfl rfl
  have hs₂ := advance_stands hu₂ (by omega)
  obtain ⟨u₃, y₃, hu₃, hcmd⟩ := wb_runs hs₂ hb (by decide : 0 < 2 ^ 32) (hget 2) rfl rfl
  have hs₃ := advance_stands hu₃ hlen
  refine ⟨u₃.advance, y₃, hs₃, ?_⟩
  rw [slotWaves_cons, bytesSlots_append_singleton, slotWaves_append, ← List.append_assoc]
  have h₁₂ := hrst.trans (hs₁.regs.trans h.regs.symm) haddr
  exact h₁₂.trans (hs₂.regs.trans h.regs.symm) hcmd

/-- CONVERT and READ_TEMP begin with phase 1 (R133, R195, R200). -/
theorem program_conversion (hi : i ∈ [Instr.convert, .readTemp]) (p : Params) (r : Regs) :
    ∃ l, program p r i = .rstc :: .addrs :: .wb p.cmdConvertT :: .poll :: l := by
  simp only [List.mem_cons, List.not_mem_nil, or_false] at hi
  rcases hi with rfl | rfl
  · exact ⟨[], rfl⟩
  · exact ⟨scratchProgram p, rfl⟩

/-- An accepted CONVERT or READ_TEMP with a device present stands at the start of POLL after its first phase's slots
(R193, R195). -/
theorem conversion_reaches_poll (hi : i ∈ [Instr.convert, .readTemp]) (hl : s.levelAt 0 = false) :
    ∃ v y, Stands (s.accept i) i 3 1 { (Progress.start true) with sr := y, presValid := true } v ∧
      TicksTo (pollStart s.params s.regs) (s.accept i) v (slotWaves s.params (convertSlots s.params s.regs)) := by
  obtain ⟨l, hp⟩ := program_conversion hi s.params (s.accept i).regs
  exact exchangeHead_runs (accept_stands s i) (accept_busy s i) (start_pollE _) hp hl

/-- Settles O34: phase 1 leads to POLL, and an unbounded poll goes on over its q samples of 0 (`poll_goes_on`). -/
theorem unboundedPollKeepsTicking : Obligations.UnboundedPollKeepsTicking := by
  unfold Obligations.UnboundedPollKeepsTicking
  intro i s q hi hb hl hN h0
  have hticks : (i != .nop && i != .decode && i != .abort) = true := by
    simp only [List.mem_cons, List.not_mem_nil, or_false] at hi
    rcases hi with rfl | rfl <;> rfl
  obtain ⟨l, hp⟩ := program_conversion hi s.params (s.accept i).regs
  have hpoll : (program (s.accept i).params (s.accept i).regs i)[3]? = some .poll := by
    rw [accept_params, hp]
    rfl
  have hbound : (s.accept i).regs.pollBound = 0 := congrArg BitVec.toNat hN
  obtain ⟨u, y, hu, hphase⟩ := conversion_reaches_poll hi hl
  obtain ⟨t, z, -, ht, hrun⟩ := poll_goes_on (accept_busy s i) hpoll hbound q u 1 _ hu (start_pollE true) rfl h0
  refine ⟨t, ⟨s.accept i, exec_accepts hticks hb, ?_⟩, ht.busy (accept_busy s i), ht.current hpoll, ht.regs⟩
  rw [slotWaves_append]
  exact hphase.trans hu.regs hrun

end Sys2Proof.Machine
end

section
/-! PROOF of O3, O4, O6 and O11. What the step does with a write to CMD, with a tick, with a host read, and with an access
the interface does not define (R82, R84, R100, R131). -/

namespace Sys2Proof.Machine

variable {s : State} {rest : List Event}

/-- A word that decodes presents its command (R131). -/
theorem presentCommand_of_decode {v : Word} {i : Instr} (h : decode v = .ok i) (s : State) :
    presentCommand v s = exec i s := by
  rw [presentCommand, h]

theorem withFetchWord_toNat (s : State) (v : Word) :
    s.withFetchWord 32 v.toNat = { s with pending := .host (.write 4 0x04 v) :: s.pending } := by
  rw [State.withFetchWord, placeCommand, Nat.mod_eq_of_lt v.isLt, BitVec.ofNat_toNat, BitVec.setWidth_eq]
  rfl

/-- A step whose event is a write to CMD presents the decoded command (R85, R131). -/
theorem step_presents {v : Word} {i : Instr} (hv : decode v = .ok i) (h : s.pending = .host (.write 4 0x04 v) :: rest) :
    step s = exec i { s with pending := rest } := by
  rw [step_cons h]
  exact (hostStep_cmd v _).trans (presentCommand_of_decode hv _)

/-- Settles O3: `step_presents`, for the announced write and for the one `withFetchWord` places. -/
theorem stepPresentsTheDecodedCommand : Obligations.StepPresentsTheDecodedCommand := by
  unfold Obligations.StepPresentsTheDecodedCommand
  intro s v i rest hv
  refine ⟨step_presents hv, ?_⟩
  rw [withFetchWord_toNat]
  exact step_presents hv rfl

/-- An idle engine does not tick (R130). -/
theorem engineTick_idle (h : s.busy = false) : engineTick s = .next s := by
  rw [engineTick, if_neg (Bool.eq_false_iff.mp h)]

/-- A step with no event announced is a tick (R100). -/
theorem step_nil (h : s.pending = []) : step s = engineTick s := by
  rw [step, h]
  rfl

/-- Settles O4: the step of an empty order, of an announced tick, and the idle engine. -/
theorem stepTicksTheEngine : Obligations.StepTicksTheEngine := by
  unfold Obligations.StepTicksTheEngine
  exact fun _ _ => ⟨step_nil, step_cons, engineTick_idle⟩

/-- A step whose event is an aligned 32-bit read changes `rdata` alone (R84). -/
theorem step_read {off : Offset} (ha : off.extractLsb' 0 2 = 0#2) (h : s.pending = .host (.read 4 off) :: rest) :
    step s = .next { s with pending := rest, rdata := memRead s off } := by
  rw [step_cons h]
  exact hostStep_read ha _

/-- A read at a register's offset returns the register (R84). -/
theorem memRead_off (s : State) (r : Reg) : memRead s r.off = s.regs.get r := by
  rw [memRead, regAt_of_off]

/-- A read where no register stands returns 0 (R45). -/
theorem memRead_unmapped {off : Offset} (h : regAt off = none) (s : State) : memRead s off = 0 := by
  rw [memRead, h]

/-- Settles O6: each of the sixteen offsets is aligned, and holds the listed register or none. -/
theorem hostReadHasNoSideEffect : Obligations.HostReadHasNoSideEffect := by
  unfold Obligations.HostReadHasNoSideEffect
  intro s rest off v hmem hp
  have hread : off.extractLsb' 0 2 = 0#2 ∧ memRead s off = v := by
    have hreg : ∀ r : Reg, r.off.extractLsb' 0 2 = 0#2 ∧ memRead s r.off = s.regs.get r :=
      fun r => ⟨off_aligned r, memRead_off s r⟩
    simp only [List.mem_cons, Prod.mk.injEq, List.not_mem_nil, or_false] at hmem
    rcases hmem with ⟨rfl, rfl⟩ | ⟨rfl, rfl⟩ | ⟨rfl, rfl⟩ | ⟨rfl, rfl⟩ | ⟨rfl, rfl⟩ | ⟨rfl, rfl⟩ | ⟨rfl, rfl⟩ |
      ⟨rfl, rfl⟩ | ⟨rfl, rfl⟩ | ⟨rfl, rfl⟩ | ⟨rfl, rfl⟩ | ⟨rfl, rfl⟩ | ⟨rfl, rfl⟩ | ⟨rfl, rfl⟩ | ⟨rfl, rfl⟩ | ⟨rfl, rfl⟩
    exacts [hreg .ctrl, hreg .cmd, hreg .status, hreg .data, hreg .addrLo, hreg .addrHi, hreg .romLo, hreg .romHi,
      hreg .raw, hreg .tempWhole, hreg .tempFrac, hreg .convTimeout, hreg .tickdiv,
      ⟨rfl, memRead_unmapped rfl s⟩, ⟨rfl, memRead_unmapped rfl s⟩, ⟨rfl, memRead_unmapped rfl s⟩]
  obtain ⟨ha, rfl⟩ := hread
  exact step_read ha hp

/-- An access of another width is refused for it, aligned or not (R82, notes/assumptions/15.md). -/
theorem hostStep_narrow {a : HostAccess} (h : a.width ≠ 4) (s : State) : hostStep a s = .refused .accessNot32Bits := by
  unfold hostStep HostAccess.wideEnough
  rw [beq_false_of_ne h]
  rfl

/-- A 32-bit access at a misaligned offset is refused (R82). -/
theorem hostStep_misaligned {a : HostAccess} (hw : a.width = 4) (ho : a.off.extractLsb' 0 2 ≠ 0#2) (s : State) :
    hostStep a s = .refused .accessMisaligned := by
  unfold hostStep HostAccess.wideEnough HostAccess.aligned
  rw [hw, beq_false_of_ne ho]
  rfl

theorem wf_of_aligned {a : HostAccess} (hw : a.width = 4) (ho : a.off.extractLsb' 0 2 = 0#2) : a.wf = true := by
  rw [HostAccess.wf, HostAccess.wideEnough, HostAccess.aligned, hw, ho]
  rfl

/-- Settles O11: the step is the host step, which tests the width first and then the offset. -/
theorem undefinedAccessesAreRefused : Obligations.UndefinedAccessesAreRefused := by
  unfold Obligations.UndefinedAccessesAreRefused
  intro s rest w off v a ha hp
  have hwo : a.width = w ∧ a.off = off := by
    rcases ha with rfl | rfl <;> exact ⟨rfl, rfl⟩
  obtain ⟨rfl, rfl⟩ := hwo
  have hstep : step s = hostStep a { s with pending := rest } := step_cons hp
  rw [hstep]
  refine ⟨fun hw => hostStep_narrow hw _, fun hw ho => hostStep_misaligned hw ho _, fun hw ho => ?_⟩
  obtain ⟨t, ht, -⟩ := hostStep_does (wf_of_aligned hw ho) { s with pending := rest }
  exact ⟨t, ht⟩

end Sys2Proof.Machine
end

section
/-! PROOF of O1 and O2. What a code is and what the decoder answers to a word (R110, R111, R113, R114). -/

namespace Sys2Proof

variable {w : Word} {i : Instr}

/-- The command map has no other gap than the reserved codes (R111, R113). -/
theorem code_cases (op : Code) : (∃ i, op = opcode i) ∨ op = 0xD ∨ op = 0xE := by
  have hmap : ∀ op : Code, (∃ i ∈ [Instr.nop, .reset, .writeBit, .readBit, .writeByte, .readByte, .skipRom, .matchRom,
      .readRom, .convert, .readScratch, .readTemp, .decode, .abort], op = opcode i) ∨ op = 0xD ∨ op = 0xE := by decide
  exact (hmap op).imp_left fun ⟨i, _, h⟩ => ⟨i, h⟩

/-- The row of the command map at a command's code (R111). -/
theorem decodeOp_opcode (i : Instr) : decodeOp (opcode i) = .ok i := by
  cases i <;> rfl

/-- A word with a command's code decodes to the command (R111, R114). -/
theorem decode_of_opcode (h : w.extractLsb' 0 4 = opcode i) : decode w = .ok i :=
  Laws.Coding.decode_of_code (decodeOp_opcode i) w h

/-- A word with a reserved code is refused by its code (R113). -/
theorem decode_of_reserved (h : w.extractLsb' 0 4 = 0xD ∨ w.extractLsb' 0 4 = 0xE) :
    decode w = .error (.reservedCode (w.extractLsb' 0 4)) := by
  rw [decode, opField]
  rcases h with h | h <;> rw [h] <;> rfl

/-- The two answers of the decoder (R114). -/
theorem decode_cases (w : Word) :
    (∃ i, w.extractLsb' 0 4 = opcode i ∧ decode w = .ok i) ∨
    ((w.extractLsb' 0 4 = 0xD ∨ w.extractLsb' 0 4 = 0xE) ∧ decode w = .error (.reservedCode (w.extractLsb' 0 4))) :=
  (code_cases _).imp (fun ⟨i, h⟩ => ⟨i, h, decode_of_opcode h⟩) fun h => ⟨h, decode_of_reserved h⟩

theorem decode_eq_ok_iff : decode w = .ok i ↔ w.extractLsb' 0 4 = opcode i := by
  refine ⟨fun h => ?_, decode_of_opcode⟩
  obtain ⟨j, hj, hd⟩ | ⟨-, hd⟩ := decode_cases w
  · cases hd.symm.trans h
    exact hj
  · cases hd.symm.trans h

theorem decode_eq_error_iff {op : Code} :
    decode w = .error (.reservedCode op) ↔ op = w.extractLsb' 0 4 ∧ (op = 0xD ∨ op = 0xE) := by
  constructor
  · intro h
    obtain ⟨j, -, hd⟩ | ⟨hr, hd⟩ := decode_cases w
    · cases hd.symm.trans h
    · cases hd.symm.trans h
      exact ⟨rfl, hr⟩
  · rintro ⟨rfl, hr⟩
    exact decode_of_reserved hr

/-- The code field of an encoded word, whatever the ignored bits hold (R110). -/
theorem encodeWith_code (u : BitVec 28) (i : Instr) : (encodeWith u i).extractLsb' 0 4 = opcode i :=
  BitVec.extractLsb'_append_eq_right

/-- Settles O2: a word decodes to a command exactly when its code field holds the command's code
(`decode_eq_ok_iff`), and is refused exactly when it holds a reserved one. -/
theorem decodeAndEncodeAgree : Obligations.DecodeAndEncodeAgree := by
  unfold Obligations.DecodeAndEncodeAgree
  refine ⟨fun i u => decode_of_opcode (encodeWith_code u i), fun w i h => ?_, fun _ _ => decode_eq_error_iff⟩
  rw [encodeWith, ← decode_eq_ok_iff.1 h]
  exact (BitVec.extractLsb'_append_extractLsb' (w := 28) (len := 4)).symm

/-- Settles O1: the code field of each of the 17 words, and what the decoder answers to it. -/
theorem commandWordsDecodeAsTheMapSays : Obligations.CommandWordsDecodeAsTheMapSays :=
  ⟨decode_of_opcode rfl, decode_of_opcode rfl, decode_of_opcode rfl, decode_of_opcode rfl, decode_of_opcode rfl,
    decode_of_opcode rfl, decode_of_opcode rfl, decode_of_opcode rfl, decode_of_opcode rfl, decode_of_opcode rfl,
    decode_of_opcode rfl, decode_of_opcode rfl, decode_of_opcode rfl, decode_of_opcode rfl, decode_of_opcode rfl,
    decode_of_reserved (.inl rfl), decode_of_reserved (.inr rfl)⟩

end Sys2Proof
end

section
/-! PROOF of O50. The two writes of `setaddr` to the idle registers ADDR_LO and ADDR_HI (R38, R119). -/

namespace Sys2Proof.Machine

variable {s : State} {rest : List Event}

/-- The two halves of a device address (R38). -/
theorem addrHalves_append (a : BitVec 64) : a.extractLsb' 32 32 ++ a.extractLsb' 0 32 = a :=
  BitVec.extractLsb'_append_extractLsb' (w := 32)

/-- An idle register without reserved bits stores the whole word written to it (R31). -/
theorem step_idleWrite_unmasked {r : Reg} {v : Word} (hm : r.mask = 0xFFFFFFFF) (hc : r.accessClass = .rwIdle)
    (hb : s.busy = false) (h : s.pending = .host (wr r v) :: rest) :
    step s = .next { s with pending := rest, regs := s.regs.put v r } := by
  have hv : v &&& r.mask = v := by
    rw [hm]
    exact BitVec.and_allOnes
  rw [step_idleWrite hc hb h, hv]

/-- An idle machine runs `setaddr a` to its end with ADDR_LO and ADDR_HI written (R119). -/
theorem setaddr_runs {a : BitVec 64} (hb : s.busy = false) (h : s.pending = (setaddr a).map .host ++ rest) :
    Host.Core.run core 2 s = .next { s with
      pending := rest, regs := (s.regs.put (a.extractLsb' 0 32) .addrLo).put (a.extractLsb' 32 32) .addrHi } := by
  rw [run_next 1 (step_idleWrite_unmasked (r := .addrLo) rfl rfl hb h)]
  exact run_next 0 (step_idleWrite_unmasked (r := .addrHi) rfl rfl hb rfl)

/-- Settles O50: the state that `setaddr_runs` reaches has the halves of a in ADDR_HI and ADDR_LO. -/
theorem setaddrLoadsTheDeviceAddress : Obligations.SetaddrLoadsTheDeviceAddress := by
  unfold Obligations.SetaddrLoadsTheDeviceAddress
  intro s a rest hb h
  refine ⟨_, setaddr_runs hb h, rfl, addrHalves_append a, fun k => ?_, hb, fun r hlo hhi => ?_⟩
  · exact congrArg (byteOf · k) (addrHalves_append a)
  · exact (get_put_other _ _ _ r hhi.symm).trans (get_put_other _ _ _ r hlo.symm)

end Sys2Proof.Machine
end

section
/-! PROOF of O15, O16, O18 and O19. What the presentation of a command does to an idle and to a busy machine (R131,
R132, R140, R141, R243). -/

namespace Sys2Proof.Machine

variable {s : State} {i : Instr}

/-- Settles O15: acceptance is the listed update of STATUS and the engine. -/
theorem tickCommandsAreAcceptedWhenIdle : Obligations.TickCommandsAreAcceptedWhenIdle := by
  unfold Obligations.TickCommandsAreAcceptedWhenIdle
  intro i s hi hb
  have hticks : (i != .nop && i != .decode && i != .abort) = true := by
    revert i
    decide
  exact exec_accepts hticks hb

/-- A busy machine drops every command but ABORT (R131, R243). -/
theorem exec_busy (hi : i ≠ .abort) (hb : s.busy = true) : exec i s = .next s.busyViolation := by
  have hticks : s.presentTicks i = s.busyViolation := if_pos hb
  have hnow : s.presentNow i = s.busyViolation := if_pos hb
  cases i
  case abort => exact absurd rfl hi
  case nop => exact congrArg _ hnow
  case decode => exact congrArg _ hnow
  all_goals exact congrArg _ hticks

/-- Settles O19: a busy violation sets bit 6 of STATUS alone. -/
theorem busyMachineDropsEveryOtherCommand : Obligations.BusyMachineDropsEveryOtherCommand := by
  unfold Obligations.BusyMachineDropsEveryOtherCommand
  exact fun _ _ hi hb => exec_busy hi hb

/-- The end of a command that an idle machine at rest runs through at once sets DONE alone (R134). -/
theorem endCommand_atRest (hb : s.busy = false) (ha : s.AtRest) : s.endCommand = s.setStatus bitDone true := by
  have he : ({ s with engine := { s.engine with drive := false, seq := .idle } } : State) = s := by
    rw [← ha.drive, ← ha.seq]
  have hs : s.setStatus bitBusy false = s := by
    rw [State.setStatus, setBit_eq_self s.regs.status hb]
  rw [State.endCommand, he, hs]

/-- Settles O16: NOP commits nothing, so DONE is cleared and set again (`endCommand_atRest`). -/
theorem nopSetsDoneAlone : Obligations.NopSetsDoneAlone := by
  refine ⟨rfl, fun s => ⟨fun hb ha => ?_, fun hb => exec_busy (by decide) hb⟩⟩
  have hcleared : (s.setStatus bitDone false).busy = false := (setStatus_busy ..).trans hb
  have hrest : (s.setStatus bitDone false).AtRest := ⟨ha.seq, ha.slot, ha.drive⟩
  have hend : (s.setStatus bitDone false).endCommand = s.setStatus bitDone true := by
    rw [endCommand_atRest hcleared hrest, State.setStatus, setStatus_status, setBit_same]
    rfl
  have hnow : s.presentNow .nop = s.setStatus bitDone true := by
    rw [State.presentNow, if_neg (Bool.eq_false_iff.mp hb)]
    exact hend
  exact congrArg _ hnow

/-- Settles O18: ABORT is `abortRunning` on a busy machine and nothing on an idle one. -/
theorem abortEndsTheRunningCommand : Obligations.AbortEndsTheRunningCommand := by
  refine ⟨rfl, fun s => ⟨fun hb => ?_, fun hb => ?_⟩⟩
  · exact congrArg _ (if_pos hb)
  · exact congrArg _ (if_neg (Bool.eq_false_iff.mp hb))

end Sys2Proof.Machine
end

section
/-! PROOF of O20 and O21. The waveforms of the slots (R135 to R137), and one tick of a running command (R130, R138). -/

namespace Sys2Proof.Machine

variable {s t : State} {m : MicroStep} {kd : SlotKind}

/-- A level that is low before tick n and released from it on. -/
theorem map_range_lt (n r : Nat) :
    (List.range (n + r)).map (fun k => decide (k < n)) = List.replicate n true ++ List.replicate r false := by
  rw [List.range_add, List.map_append, List.map_map]
  congr 1 <;> simp [List.eq_replicate_iff]

/-- Settles O20: each wave is low before one tick and released from it on (`map_range_lt`). -/
theorem slotWavesAreTheSpecified : Obligations.SlotWavesAreTheSpecified := by
  unfold Obligations.SlotWavesAreTheSpecified
  intro p
  have hfirst : (List.range (60 + p.tRec)).map (fun k => k == 0) = true :: List.replicate (59 + p.tRec) false := by
    have hlow : (fun k : Nat => k == 0) = fun k => decide (k < 1) := by
      funext k
      cases k <;> simp
    rw [hlow, show 60 + p.tRec = 1 + (59 + p.tRec) by omega]
    exact map_range_lt 1 (59 + p.tRec)
  refine ⟨map_range_lt 480 480, hfirst, map_range_lt 60 p.tRec, hfirst, fun k => ?_, fun kd k h => ?_⟩
  · simp [SlotKind.samplesAt]
  · cases kd <;> simp [SlotKind.samplesAt, SlotKind.drivesLow] at h ⊢ <;> omega

/-- Every slot begins with the line driven low (R135 to R137). -/
theorem drivesLow_zero (kd : SlotKind) : kd.drivesLow 0 = true := by
  cases kd <;> rfl

/-- The level of a tick in a slot under way (R138). -/
theorem tickLow_of_slot (hb : s.busy = true) (hm : s.currentStep = some m) (hs : s.engine.slot = some kd) :
    s.tickLow = kd.drivesLow s.engine.k := by
  simp only [State.tickLow, hb, hm, beginSlot_of_some hs, hs, if_true]

/-- A tick between two slots is the first tick of the next one (R138). -/
theorem tickLow_of_no_slot (hb : s.busy = true) (hm : s.currentStep = some m) (hs : s.engine.slot = none) :
    s.tickLow = true := by
  obtain ⟨-, hbb, -, hbm⟩ := beginSlot_keeps m s
  obtain ⟨x, kd, -, -, he⟩ := beginSlot_of_none (m := m) hs
  rw [(engineTick_beginSlot hb hm hs).2, tickLow_of_slot (kd := kd) (hbb.trans hb) (hbm.trans hm) (by rw [he]), he]
  exact drivesLow_zero kd

/-- The coming sample is the level at index 0 (R95). -/
theorem lineLevel_eq_levelAt (s : State) : s.lineLevel = s.levelAt 0 := by
  unfold State.lineLevel State.levelAt
  cases s.levels <;> rfl

/-- The counting part of a tick outside POLL: one sample, in the sample tick, and no poll counter moves (R138). -/
theorem slotTick_outside_poll (hm : m ≠ .poll) :
    (s.slotTick m kd).pollCount m = { s with
      engine := { s.engine with
        drive := kd.drivesLow s.engine.k
        sampled := if kd.samplesAt s.engine.k then s.levelAt 0 else s.engine.sampled
        k := s.engine.k + 1
        psc := 0 }
      levels := if kd.samplesAt s.engine.k then s.levels.drop 1 else s.levels
      draws := if kd.samplesAt s.engine.k then s.draws + 1 else s.draws } := by
  have hm' : (m == MicroStep.poll) = false := beq_false_of_ne hm
  rw [State.pollCount, if_neg hm]
  cases hk : kd.samplesAt s.engine.k with
  | false => simp [State.slotTick, State.driveLine, hk]
  | true => simp [State.slotTick, State.driveLine, State.sample, hk, hm', ← lineLevel_eq_levelAt, State.lineLevel]

/-- Settles O21: a tick that leaves the command running shows `tickLow` on the pin (`engineTick_pin`), and inside a slot
it is its counting part (`slotTick_outside_poll`). -/
theorem oneTickDrivesSamplesAndCounts : Obligations.OneTickDrivesSamplesAndCounts := by
  refine ⟨fun s t h ht => ?_, fun s m kd hb hm hnp hs hk => ?_⟩
  · obtain ⟨hdrive, hpsc⟩ := engineTick_pin h ht
    obtain ⟨hb, rfl⟩ | ⟨hb, m, hm, -⟩ := engineTick_cases h
    · exact absurd ht (Bool.eq_false_iff.mp hb)
    · exact ⟨fun kd hs => hdrive.trans (tickLow_of_slot hb hm hs),
        fun hs => hdrive.trans (tickLow_of_no_slot hb hm hs), hpsc⟩
  · rw [engineTick_of_slot hb hm hs, State.runTick, slotTick_outside_poll hnp]
    dsimp only
    rw [no_timeout_outside_poll hnp, if_neg Bool.false_ne_true, if_neg (Nat.ne_of_lt hk)]

end Sys2Proof.Machine
end

section
/-! PROOF of O22, O23 and O24. The commands of one slot: RESET, WRITE_BIT and READ_BIT (R142, R143, R144). -/

namespace Sys2Proof.Machine

variable {s : State} {m : MicroStep} {kd : SlotKind} {i : Instr} {k : Nat}

/-- The ticks from between two slots are the ticks of the slot begun (R138). -/
theorem runTicks_beginSlot (hb : s.busy = true) (hm : s.currentStep = some m) (hs : s.engine.slot = none) (n : Nat) :
    runTicks (n + 1) s = runTicks (n + 1) (s.beginSlot m) := by
  simp only [runTicks, (engineTick_beginSlot hb hm hs).1]

/-- A tick before a slot's last moves the closed form by one, outside POLL (R138). -/
theorem engineTick_inside_slot (hb : s.busy = true) (hm : s.currentStep = some m) (hnp : m ≠ .poll)
    (hs : s.engine.slot = some kd) (hk : k + 1 < kd.length s.params) :
    engineTick (slotAfter m kd s k) = .next (slotAfter m kd s (k + 1)) := by
  rw [engineTick_slotAfter hb hm hs, no_timeout_outside_poll hnp, if_neg Bool.false_ne_true, if_neg (Nat.ne_of_lt hk)]

/-- The closed form counts the sample in the sample tick, not before (R135, R137). -/
theorem slotAfter_draws (hs : kd.samplesAt k = true) :
    (slotAfter m kd s k).draws = s.draws ∧ (slotAfter m kd s (k + 1)).draws = s.draws + 1 := by
  simp [slotAfter, sampledBy_succ, not_sampledBy_and_samplesAt hs, hs]

/-- No slot samples in its first tick (R96, R135 to R137). -/
theorem samplesAt_ne_zero (hs : kd.samplesAt k = true) : k ≠ 0 := by
  rintro rfl
  cases kd <;> cases hs

/-- An accepted command whose first slot samples in tick k takes its first sample there (R135, R137). -/
theorem samplesInTick_of_first_slot (hi : exec i s = .next (s.accept i))
    (hm : (s.accept i).currentStep = some m) (hnp : m ≠ .poll)
    (hkd : ((s.accept i).beginSlot m).engine.slot = some kd) (hs : kd.samplesAt k = true)
    (hk : k + 1 < kd.length s.params) : SamplesInTick i k s := by
  obtain ⟨-, hbusy, hparams, hstep⟩ := beginSlot_keeps m (s.accept i)
  have hb := hbusy.trans (accept_busy s i)
  have hm' := hstep.trans hm
  have hlen : kd.length ((s.accept i).beginSlot m).params = kd.length s.params := by rw [hparams, accept_params]
  obtain ⟨x, _, -, -, hbegun⟩ := beginSlot_of_none (m := m) (accept_slot s i)
  have hdraws : ((s.accept i).beginSlot m).draws = s.draws := by rw [hbegun]; rfl
  have hzero : slotAfter m kd ((s.accept i).beginSlot m) 0 = (s.accept i).beginSlot m := by
    rw [hbegun]
    exact slotAfter_zero rfl (Nat.two_pow_pos 32)
  obtain ⟨hrun, -⟩ := runTicks_in_slot hb hm' hkd k 0 (by omega) fun _ _ _ => no_timeout_outside_poll hnp
  rw [hzero, Nat.zero_add] at hrun
  obtain ⟨n, rfl⟩ := Nat.exists_eq_succ_of_ne_zero (samplesAt_ne_zero hs)
  obtain ⟨hbefore, hafter⟩ := slotAfter_draws (m := m) (s := (s.accept i).beginSlot m) hs
  rw [hdraws] at hbefore hafter
  exact ⟨s.accept i, _, _, hi, (runTicks_beginSlot (accept_busy s i) hm rfl n).trans hrun, hbefore,
    engineTick_inside_slot hb hm' hnp hkd (hlen ▸ hk), hafter⟩

/-- The registers after a command whose commit leaves STATUS alone: those of the commit, and DONE (R134). -/
theorem complete_regs_of_status {n c : Nat} {e : Progress} {v : State} (h : Stands (s.accept i) i n c e v)
    (hb : s.busy = false) (hc : (v.commit i).regs.status = v.regs.status) :
    (v.complete i).regs = { (v.commit i).regs with status := withDone s.regs.status } := by
  have hst : (v.complete i).regs.status = withDone s.regs.status := by
    rw [State.complete, endCommand_status, hc, h.regs, accept_status]
    exact status_done _ hb
  rw [← hst]
  rfl

/-- The registers after a command that commits PRESENT: those of the commit, PRESENT and DONE (R47, R134). -/
theorem complete_regs_of_present {n c : Nat} {e : Progress} {v : State} (h : Stands (s.accept i) i n c e v)
    (hb : s.busy = false) (hc : (v.commit i).regs.status = v.commitPresent.regs.status) :
    (v.complete i).regs = { (v.commit i).regs with status := withPresence e.pres s.regs.status } := by
  have hst : (v.complete i).regs.status = withPresence e.pres s.regs.status := by
    rw [State.complete, endCommand_status, hc, State.commitPresent, setStatus_status, h.pres, h.regs, accept_status]
    exact status_present _ _ hb
  rw [← hst]
  rfl

/-- Settles O22: the one micro-step RSTP, and the commit of PRESENT. -/
theorem resetReportsPresence : Obligations.ResetReportsPresence := by
  refine ⟨rfl, fun s hb => ?_⟩
  have hacc : exec .reset s = .next (s.accept .reset) := exec_accepts rfl hb
  refine ⟨samplesInTick_of_first_slot (m := .rstp) (kd := .rst) hacc rfl (by decide) rfl rfl ?_, ?_⟩
  · exact (by decide : 541 < 960)
  obtain ⟨v, hv, hrun⟩ := rstp_slot (accept_stands s .reset) (accept_busy s _) (start_pollE _) rfl
  rw [advance_completes hv rfl] at hrun
  refine ⟨_, ⟨_, hacc, hrun⟩, complete_ended hv ?_⟩
  rw [complete_regs_of_present hv hb rfl, State.commit, State.commitPresent, State.setStatus, hv.regs]
  rfl

/-- Settles O23: the one micro-step WBIT, which commits nothing. -/
theorem writeBitSendsDataBitZero : Obligations.WriteBitSendsDataBitZero := by
  refine ⟨rfl, fun s hb => ?_⟩
  have hacc : exec .writeBit s = .next (s.accept .writeBit) := exec_accepts rfl hb
  obtain ⟨v, hv, hrun⟩ := wbit_slot (accept_stands s .writeBit) (accept_busy s _) (start_pollE _) rfl
  rw [advance_completes hv rfl] at hrun
  refine ⟨_, ⟨_, hacc, hrun⟩, complete_ended hv ?_⟩
  rw [complete_regs_of_status hv hb rfl, State.commit, hv.regs]
  rfl

/-- One received bit as a register's word (R15, R144). -/
theorem zext32_ofBool (b : Bool) : zext32 (BitVec.ofBool b) = if b then 1 else 0 := by
  cases b <;> rfl

/-- Settles O24: the one micro-step RBIT, and the commit of its bit to DATA. -/
theorem readBitWritesTheSampleToData : Obligations.ReadBitWritesTheSampleToData := by
  refine ⟨rfl, fun s hb => ?_⟩
  have hacc : exec .readBit s = .next (s.accept .readBit) := exec_accepts rfl hb
  refine ⟨samplesInTick_of_first_slot (m := .rbit) (kd := .rd) hacc rfl (by decide) rfl rfl ?_, ?_⟩
  · exact (by omega : 16 < 60 + s.params.tRec)
  obtain ⟨v, hv, hrun⟩ := rbit_slot (accept_stands s .readBit) (accept_busy s _) (start_pollE _) rfl
  rw [advance_completes hv rfl] at hrun
  refine ⟨_, ⟨_, hacc, hrun⟩, complete_ended hv ?_⟩
  have hbit : v.engine.buf.getLsbD 0 = s.levelAt 0 := by
    rw [hv.buf, getLsbD_setBit]
    rfl
  rw [complete_regs_of_status hv hb rfl, State.commit, hbit, zext32_ofBool, hv.regs]
  rfl

end Sys2Proof.Machine
end

section
/-! PROOF of O43. What a step that ends a running command leaves, whether by completion, by an error or by ABORT (R134,
R140, R245, R250). -/

namespace Sys2Proof.Machine

variable {s t : State}

/-- The end of a command with no slot in progress leaves the engine at rest (R134). -/
theorem endCommand_rests (h : s.engine.slot = none) : s.endCommand.AtRest :=
  ⟨rfl, h, rfl⟩

theorem complete_rests (i : Instr) (h : s.engine.slot = none) : (s.complete i).AtRest :=
  endCommand_rests (by rw [commit_engine]; exact h)

/-- A host access ends a running command only by ABORT (R131, R140). -/
theorem HostDoes.ends {a : HostAccess} (hd : HostDoes a s t) (hs : s.busy = true) (ht : t.busy = false) :
    t = s.abortRunning := by
  have hne : t.busy ≠ s.busy := by rw [hs, ht]; decide
  have hrunning : s.busy ≠ false := by rw [hs]; decide
  cases hd with
  | reads v h => exact absurd (by rw [h]; rfl) hne
  | ignored h => exact absurd (by rw [h]) hne
  | violates _ h => exact absurd (by rw [h]; exact setStatus_busy ..) hne
  | clears v _ h => exact absurd (by rw [h, clearStatus_busy]) hne
  | stores _ _ hi => exact absurd hi hrunning
  | illegal hi => exact absurd hi hrunning
  | accepts _ hi => exact absurd hi hrunning
  | atOnce _ hi => exact absurd hi hrunning
  | aborts _ h => exact h

theorem abortRunning_done (s : State) : s.abortRunning.done = true := by
  simp [State.abortRunning, errAbortedCode]

/-- A tick that ends the command sets DONE and leaves the engine at rest (R134, R245). -/
theorem TickEnds.ends {m : MicroStep} (h : TickEnds m s t) (hs : s.busy = true) (ht : t.busy = false) :
    t.done = true ∧ t.AtRest := by
  cases h with
  | goesOn h => exact absurd (ht.symm.trans (h.busy.trans hs)) Bool.false_ne_true
  | completes u i _ _ slot ends => exact ends ▸ ⟨endCommand_done _, complete_rests i slot⟩
  | raises u e _ _ ends => exact ends ▸ ⟨endCommand_done _, endCommand_rests rfl⟩

/-- A step that ends a running command sets DONE and leaves the engine at rest. -/
theorem step_ends (hs : s.busy = true) (h : step s = .next t) (ht : t.busy = false)
    (hr : ∀ a, s.nextEvent ≠ .rst a) : t.done = true ∧ t.AtRest := by
  have hne : t.busy ≠ s.busy := by rw [hs, ht]; decide
  obtain ⟨a, ha, -⟩ | ⟨a, -, hHost⟩ | ⟨-, rfl⟩ | ⟨-, -, rfl⟩ | ⟨-, m, -, hTick⟩ := step_cases h
  · exact absurd ha (hr a)
  · exact hHost.ends hs ht ▸ ⟨abortRunning_done _, rfl, rfl, rfl⟩
  · exact absurd rfl hne
  · exact absurd rfl hne
  · exact hTick.ends hs ht

/-- Settles O43: DONE and rest by `step_ends`, and CTRL.IE is frozen while busy (`operandsAreFrozenWhileBusy`). -/
theorem everyEndSetsDoneAndReleasesTheLine : Obligations.EveryEndSetsDoneAndReleasesTheLine := by
  unfold Obligations.EveryEndSetsDoneAndReleasesTheLine
  intro s t hs h ht hr
  obtain ⟨hdone, hrest⟩ := step_ends hs h ht hr
  obtain ⟨hctrl, -⟩ := operandsAreFrozenWhileBusy s t hs h hr
  refine ⟨hdone, hrest, ?_⟩
  rw [State.irq, hdone, Bool.and_true, Regs.ie, hctrl]

end Sys2Proof.Machine
end

section
/-! PROOF of O49. The clock cycles of one tick: all but the last count in the prescaler, and the last one runs the tick
(R44, R130). -/

namespace Sys2Proof.Machine

variable {s : State} {rest : List Event}

/-- A run of one step is the step. -/
theorem run_one (s : State) : Host.Core.run core 1 s = step s := by
  cases h : step s <;> simp only [Host.Core.run, show core.step s = _ from h] <;> rfl

/-- The last n + 1 clock cycles of a tick do what the tick does (R130). -/
theorem clockCycles_run (n : Nat) : ∀ s : State, s.busy = true → s.engine.psc + (n + 1) = s.regs.tickCycles →
    s.pending = List.replicate (n + 1) .clk ++ rest →
    Host.Core.run core (n + 1) s = engineTick { s with pending := rest } := by
  induction n with
  | zero =>
    intro s hb hpsc hp
    rw [run_one, step_cons hp]
    exact clockEvent_ticks hb (by dsimp only; omega)
  | succ n ih =>
    intro s hb hpsc hp
    rw [List.replicate_succ, List.cons_append] at hp
    have hcount := (step_cons hp).trans (clockEvent_counts hb (by dsimp only; omega))
    have hrest := ih { s with
      pending := List.replicate (n + 1) .clk ++ rest, engine := { s.engine with psc := s.engine.psc + 1 } } hb
      (by dsimp only; omega) rfl
    exact (run_next (n + 1) hcount).trans (hrest.trans (engineTick_psc (s := { s with pending := rest }) hb _))

/-- Settles O49: the prescaler counts all the tick's cycles from 0 (`clockCycles_run`). -/
theorem aTickLastsTickdivClockCycles : Obligations.ATickLastsTickdivClockCycles := by
  unfold Obligations.ATickLastsTickdivClockCycles
  intro s rest hb hpsc hp
  obtain ⟨n, hn⟩ : ∃ n, max (s.regs.tickdiv.extractLsb' 0 16).toNat 1 = n + 1 :=
    Nat.exists_eq_succ_of_ne_zero (by omega)
  rw [hn] at hp ⊢
  exact clockCycles_run n s hb (by rw [hpsc, Nat.zero_add]; exact hn.symm) hp

end Sys2Proof.Machine
end

section
/-! PROOF of O25, O26 and O27. The commands of one byte, WRITE_BYTE and READ_BYTE (R170, R171), and the byte that reads
back as it was written (R174). -/

namespace Sys2Proof.Machine

/-- The slots of DATA[7:0] are the write slots of DATA[0] to DATA[7] (R37, R172). -/
theorem byteSlots_dataByte (r : Regs) : byteSlots r.dataByte = (List.range 8).map fun i => writeSlot (r.data.getLsbD i) := by
  refine List.map_congr_left fun i hi => ?_
  have hi8 : i < 8 := List.mem_range.1 hi
  simp [Regs.dataByte, low, hi8]

/-- Settles O25: the one micro-step WB, which sends the slots of DATA[7:0] and commits nothing. -/
theorem writeByteSendsLeastSignificantBitFirst : Obligations.WriteByteSendsLeastSignificantBitFirst := by
  refine ⟨decode_of_opcode rfl, fun s hb => ?_⟩
  obtain ⟨v, y, hv, hrun⟩ := wb_runs (accept_stands s .writeByte) (accept_busy s _) (start_pollE _) rfl rfl rfl
  rw [advance_completes hv rfl, byteSlots_dataByte] at hrun
  refine ⟨_, ⟨_, exec_accepts rfl hb, hrun⟩, complete_ended hv ?_⟩
  rw [complete_regs_of_status hv hb rfl, State.commit, hv.regs]
  rfl

/-- The low n bits of the received ones, as a register's word: the levels sampled, then zeros (R15, R173). -/
theorem zext32_low_received_bit (s : State) {n k : Nat} (hn : n ≤ 32) (hk : n ≤ k) (hk' : k ≤ 64) (j : Nat) :
    (zext32 (low n (s.received 0 k))).getLsbD j = (decide (j < n) && s.levelAt j) := by
  by_cases hj : j < n
  · simp [zext32, low, received_bit s 0 k j hk', hj, show j < k by omega, show j < 32 by omega]
  · simp [zext32, low, hj]

/-- Settles O26: the one micro-step RB(1), and the commit of the eight received bits to DATA. -/
theorem readByteAssemblesLeastSignificantBitFirst : Obligations.ReadByteAssemblesLeastSignificantBitFirst := by
  refine ⟨decode_of_opcode rfl, fun s hb => ?_⟩
  obtain ⟨v, hv, hrun⟩ :=
    rb_runs (accept_stands s .readByte) (accept_busy s _) (start_pollE _) rfl Nat.one_pos rfl rfl rfl
  rw [advance_completes hv rfl, Nat.one_mul] at hrun
  refine ⟨_, _, ⟨_, exec_accepts rfl hb, hrun⟩, zext32_low_received_bit (s.accept .readByte) (by decide) le_rfl (by decide),
    complete_ended hv ?_⟩
  rw [complete_regs_of_status hv hb rfl, State.commit, hv.buf, hv.regs]
  rfl

/-- The write slot of a bit leaves the bit's own level on the line at k = 15 (R136, R174). -/
theorem writeSlot_level_at_sample (b : Bool) : (!(writeSlot b).drivesLow 15) = b := by
  cases b <;> rfl

/-- Settles O27: READ_BYTE assembles the levels (`readByteAssemblesLeastSignificantBitFirst`), and each is the bit's own
(`writeSlot_level_at_sample`). -/
theorem writtenByteReadsBack : Obligations.WrittenByteReadsBack := by
  intro s x hb hlevel
  obtain ⟨t, d, hrun, hbits, hend⟩ := readByteAssemblesLeastSignificantBitFirst.2 s hb
  have hdata : t.regs.data = d := congrArg Regs.data hend.regs
  refine ⟨t, hrun, hdata.trans (word_ext fun j => ?_)⟩
  rw [hbits, BitVec.getLsbD_setWidth]
  by_cases hj : j < 8
  · have hj' : s.levelAt j = x.getLsbD j := (hlevel j hj).trans (writeSlot_level_at_sample _)
    simp [hj, hj', show j < 32 by omega]
  · simp [hj, BitVec.getLsbD_of_ge x j (Nat.le_of_not_lt hj)]

end Sys2Proof.Machine
end

section
/-! PROOF of O28, O29 and O30. The addressing commands: programs of sent bytes alone, SKIP_ROM and MATCH_ROM (R181, R182),
and READ_ROM, which sends one byte and reads eight (R183). -/

namespace Sys2Proof.Machine

variable {b s : State} {i : Instr} {c : Nat}

theorem bytesSlots_cons (x : Byte) (xs : List Byte) : bytesSlots (x :: xs) = byteSlots x ++ bytesSlots xs :=
  List.flatMap_cons

/-- The last bytes of a program that only sends bytes go out one after the other, and end the command (R133, R172). -/
theorem sentBytes_complete (hb : b.busy = true) (xs : List Byte) : ∀ (s : State) (n : Nat) (e : Progress) (x : Byte),
    Stands b i n c e s → e.pollE < 2 ^ 32 → e.nbit = 0 → e.nbyte = 0 →
    (program b.params b.regs i).drop n = (x :: xs).map .wb →
    ∃ v m y, Stands b i m c y v ∧
      TicksTo ((xs.length + 1) * byteTicks b.params) s (v.complete i) (slotWaves b.params (bytesSlots (x :: xs))) := by
  induction xs with
  | nil =>
    intro s n e x h he h0 hy hp
    have hlen := congrArg List.length hp
    simp only [List.length_drop, List.length_map, List.length_singleton] at hlen
    obtain ⟨v, y, hv, hrun⟩ := wb_runs h hb he (by rw [← List.head?_drop, hp]; rfl) h0 hy
    rw [advance_completes hv (by omega)] at hrun
    exact ⟨v, n, _, hv, by simpa [bytesSlots] using hrun⟩
  | cons x' xs ih =>
    intro s n e x h he h0 hy hp
    have hlen := congrArg List.length hp
    simp only [List.length_drop, List.length_map, List.length_cons] at hlen
    obtain ⟨u, y, hu, hfirst⟩ := wb_runs h hb he (by rw [← List.head?_drop, hp]; rfl) h0 hy
    have hnext := advance_stands hu (by omega)
    obtain ⟨v, m, z, hv, hrest⟩ := ih u.advance (n + 1) _ x' hnext (Nat.two_pow_pos 32) rfl rfl
      (by rw [← List.tail_drop, hp]; rfl)
    refine ⟨v, m, z, hv, ?_⟩
    rw [List.length_cons, Nat.succ_mul, Nat.add_comm, bytesSlots_cons, slotWaves_append]
    exact hfirst.trans (hnext.regs.trans h.regs.symm) hrest

/-- A command that only sends bytes and commits nothing sends their slots in order, and leaves every register but STATUS
alone (R134, R172). -/
theorem sendingCommand_runs {x : Byte} {xs : List Byte} (hb : s.busy = false)
    (hi : (i != .nop && i != .decode && i != .abort) = true) (hc : ∀ v : State, v.commit i = v)
    (hp : program s.params (s.accept i).regs i = (x :: xs).map .wb) : ∃ t,
    RunsIn i ((xs.length + 1) * (8 * (60 + s.params.tRec))) s t (slotWaves s.params (bytesSlots (x :: xs))) ∧
    Ended s t { s.regs with status := withDone s.regs.status } 0 := by
  obtain ⟨v, _, _, hv, hrun⟩ := sentBytes_complete (accept_busy s i) xs _ 0 _ x (accept_stands s i) (start_pollE _) rfl rfl hp
  refine ⟨_, ⟨_, exec_accepts hi hb, hrun⟩, complete_ended hv ?_⟩
  rw [complete_regs_of_status hv hb (congrArg (·.regs.status) (hc v)), hc, hv.regs]
  rfl

/-- Settles O28: SKIP_ROM's program is the one byte CMD_SKIP_ROM. -/
theorem skipRomSendsItsCommandByte : Obligations.SkipRomSendsItsCommandByte := by
  refine ⟨decode_of_opcode rfl, fun s hb => ?_⟩
  have hp : program s.params (s.accept .skipRom).regs .skipRom = [s.params.cmdSkipRom].map .wb := rfl
  have h := sendingCommand_runs hb rfl (fun _ => rfl) hp
  simpa only [bytesSlots, List.flatMap_singleton, List.length_nil, Nat.zero_add, Nat.one_mul] using h

/-- The slots of byte j of a word are those of its bits 8j to 8j + 7 (R89, R172). -/
theorem byteSlots_byteOf {n : Nat} (w : BitVec n) (j : Nat) :
    byteSlots (byteOf w j) = ((List.range 8).map (8 * j + ·)).map fun k => writeSlot (w.getLsbD k) := by
  rw [List.map_map]
  refine List.map_congr_left fun k hk => ?_
  have hk8 : k < 8 := List.mem_range.1 hk
  simp [byteOf, hk8]

/-- The slots of the first m bytes of a word are those of its first 8m bits (R89, R172). -/
theorem bytesSlots_byteOf {n : Nat} (w : BitVec n) (m : Nat) :
    bytesSlots ((List.range m).map (byteOf w)) = (List.range (8 * m)).map fun k => writeSlot (w.getLsbD k) := by
  induction m with
  | zero => rfl
  | succ m ih =>
    rw [List.range_succ, List.map_append, List.map_singleton, bytesSlots_append_singleton, ih, byteSlots_byteOf,
      ← List.map_append, ← List.range_add, Nat.mul_succ]

/-- Settles O29: MATCH_ROM's program is CMD_MATCH_ROM and then the bytes of ADDR, whose slots are those of its bits
(`bytesSlots_byteOf`). -/
theorem matchRomSendsTheAddressInOrder : Obligations.MatchRomSendsTheAddressInOrder := by
  refine ⟨decode_of_opcode rfl, fun s hb => ?_⟩
  have hp : program s.params (s.accept .matchRom).regs .matchRom =
      (s.params.cmdMatchRom :: (List.range 8).map (byteOf s.regs.addr)).map .wb := rfl
  have h := sendingCommand_runs hb rfl (fun _ => rfl) hp
  rw [bytesSlots_cons, bytesSlots_byteOf, List.length_map, List.length_range] at h
  exact h

/-- Settles O30: WB(CMD_READ_ROM), RB(8), and the commit of the 64 received bits to ROM. -/
theorem readRomCollectsSixtyFourBits : Obligations.ReadRomCollectsSixtyFourBits := by
  refine ⟨decode_of_opcode rfl, fun s hb => ?_⟩
  have hb' := accept_busy s .readRom
  obtain ⟨u, y, hu, hsend⟩ := wb_runs (accept_stands s .readRom) hb' (start_pollE _) rfl rfl rfl
  have hnext := advance_stands hu Nat.one_lt_two
  obtain ⟨v, hv, hread⟩ := rb_runs hnext hb' (Nat.two_pow_pos 32) rfl (by decide) rfl rfl rfl
  rw [advance_completes hv rfl] at hread
  have hrun := hsend.trans hnext.regs hread
  rw [← slotWaves_append, Nat.add_comm, ← Nat.succ_mul] at hrun
  have hbits : ∀ j < 64, (v.engine.buf.extractLsb' 32 32 ++ v.engine.buf.extractLsb' 0 32).getLsbD j = s.levelAt j := by
    intro j hj
    rw [addrHalves_append, hv.buf, received_bit _ _ _ _ le_rfl, decide_eq_true hj, Bool.true_and, Nat.zero_add]
    rfl
  refine ⟨_, _, _, ⟨_, exec_accepts rfl hb, hrun⟩, hbits, complete_ended hv ?_⟩
  rw [complete_regs_of_status hv hb rfl, State.commit, hv.regs]
  rfl

end Sys2Proof.Machine
end

section
/-! PROOF of O31, O32, O35, O36 and O37. The conversion commands: phase 1 with a successful poll, phase 2 with its commit
(R193, R195, R196, R200), and the reset slot of either phase that no device answers (R191). -/

namespace Sys2Proof.Machine

variable {s u : State} {i : Instr} {n c q : Nat} {e : Progress}

/-! ### A device that does not answer -/

/-- A reset slot of RSTC that no device answers ends the command with ERR_ABSENT and PRESENT 0 (R191, R245). -/
theorem absence_ends (h : Stands (s.accept i) i n c e u) (hb : s.busy = false) (he : e.pollE < 2 ^ 32)
    (hp : (program s.params (s.accept i).regs i)[n]? = some .rstc) (hl : s.levelAt c = true) :
    ∃ t, TicksTo 960 u t (SlotKind.rst.wave s.params) ∧
      Ended s t { s.regs with status := setBit (withPresence false s.regs.status) 3 true } (c + 1) := by
  obtain ⟨v, hv, hrun⟩ := rstc_slot h (accept_busy s i) he hp
  have hl' : (s.accept i).levelAt c = true := hl
  rw [hl'] at hv
  rw [hl', if_pos rfl] at hrun
  exact ⟨_, hrun, raise_ended .absent (hv.carries rfl) hb⟩

/-- Settles O31: the first micro-step of all three commands is RSTC (`absence_ends`). -/
theorem absenceEndsAConversionCommand : Obligations.AbsenceEndsAConversionCommand := by
  intro i s hi hb hl
  have hstart : exec i s = .next (s.accept i) ∧ (program s.params (s.accept i).regs i)[0]? = some .rstc := by
    simp only [List.mem_cons, List.not_mem_nil, or_false] at hi
    rcases hi with rfl | rfl | rfl <;> exact ⟨exec_accepts rfl hb, rfl⟩
  obtain ⟨t, hrun, hend⟩ := absence_ends (accept_stands s i) hb (start_pollE _) hstart.2 hl
  exact ⟨t, ⟨_, hstart.1, hrun⟩, hend⟩

/-! ### Phase 1 -/

/-- Phase 1 of CONVERT or READ_TEMP with a device present and the first poll sample of 1 in slot q + 1, in time: POLL
has run its last slot (R193, R195). -/
theorem conversionPhase_runs (hi : i ∈ [Instr.convert, .readTemp]) (hl : s.levelAt 0 = false)
    (h0 : ∀ j < q, s.levelAt (1 + j) = false) (h1 : s.levelAt (1 + q) = true)
    (hN : s.regs.convTimeout.toNat = 0 ∨ q * (60 + s.params.tRec) + 16 ≤ s.regs.convTimeout.toNat) :
    ∃ v y x, Stands (s.accept i) i 3 (2 + q)
        { (Progress.start true) with sr := y, presValid := true, pollE := x, pollHit := true } v ∧
      TicksTo (pollStart s.params s.regs + (q + 1) * (60 + s.params.tRec)) (s.accept i) v.advance
        (slotWaves s.params (convertSlots s.params s.regs ++ List.replicate (q + 1) .rd)) := by
  obtain ⟨l, hp⟩ := program_conversion hi s.params (s.accept i).regs
  have hpoll : (program (s.accept i).params (s.accept i).regs i)[3]? = some .poll := by
    rw [accept_params, hp]
    rfl
  have hbound : (s.accept i).regs.pollBound = 0 ∨ 0 + q * slotTicks s.params + 16 ≤ (s.accept i).regs.pollBound := by
    rw [Nat.zero_add]
    exact hN
  obtain ⟨u, y, hu, hphase⟩ := conversion_reaches_poll hi hl
  obtain ⟨v, x, -, hv, hrun⟩ := poll_succeeds (accept_busy s i) hpoll q u 1 _ hu (start_pollE true) rfl h0 h1 hbound
  have hc : 1 + (q + 1) = 2 + q := by omega
  rw [hc] at hv
  refine ⟨v, y, x, hv, ?_⟩
  rw [slotWaves_append]
  exact hphase.trans hu.regs hrun

/-- Settles O32: POLL is the last micro-step of CONVERT, which commits PRESENT. -/
theorem convertCompletesWhenThePollReadsOne : Obligations.ConvertCompletesWhenThePollReadsOne := by
  intro s q hb hl h0 h1 hN
  obtain ⟨v, y, x, hv, hrun⟩ := conversionPhase_runs (i := .convert) (by decide) hl h0 h1 hN
  rw [advance_completes hv rfl] at hrun
  refine ⟨_, ⟨_, exec_accepts rfl hb, hrun⟩, complete_ended hv ?_⟩
  rw [complete_regs_of_present hv hb rfl, State.commit, State.commitPresent, State.setStatus, hv.regs]
  rfl

/-- READ_TEMP after a successful phase 1 stands at the start of phase 2 (R200). -/
theorem readTemp_reaches_scratchPhase (hl : s.levelAt 0 = false)
    (h0 : ∀ j < q, s.levelAt (1 + j) = false) (h1 : s.levelAt (1 + q) = true)
    (hN : s.regs.convTimeout.toNat = 0 ∨ q * (60 + s.params.tRec) + 16 ≤ s.regs.convTimeout.toNat) :
    ∃ u y, Stands (s.accept .readTemp) .readTemp 4 (2 + q) { (Progress.start true) with sr := y, presValid := true } u ∧
      TicksTo (pollStart s.params s.regs + (q + 1) * (60 + s.params.tRec)) (s.accept .readTemp) u
        (slotWaves s.params (convertSlots s.params s.regs ++ List.replicate (q + 1) .rd)) := by
  obtain ⟨v, y, x, hv, hrun⟩ := conversionPhase_runs (i := .readTemp) (by decide) hl h0 h1 hN
  exact ⟨v.advance, y, advance_stands hv (by decide : 4 < 8), hrun⟩

/-- Settles O37: the micro-step after POLL is RSTC again (`absence_ends`). -/
theorem readTempEndsWhenTheDeviceIsGone : Obligations.ReadTempEndsWhenTheDeviceIsGone := by
  intro s q hb hl h0 h1 hN h2
  obtain ⟨u, y, hu, hphase⟩ := readTemp_reaches_scratchPhase hl h0 h1 hN
  obtain ⟨t, hrun, hend⟩ := absence_ends hu hb (start_pollE true) rfl h2
  have hc : 2 + q + 1 = 3 + q := by omega
  rw [hc] at hend
  refine ⟨t, ⟨_, exec_accepts rfl hb, ?_⟩, hend⟩
  have hwave : slotWaves s.params [.rst] = SlotKind.rst.wave s.params := List.append_nil _
  rw [slotWaves_append, hwave]
  exact hphase.trans hu.regs hrun

/-! ### Phase 2 -/

/-- The 16 bits of a word that holds them and zeros (R15, R40). -/
theorem low_zext32 (x : BitVec 16) : low 16 (zext32 x) = x := by
  refine BitVec.eq_of_getLsbD_eq fun j hj => ?_
  simp [low, zext32, hj, show j < 32 by omega]

/-- The commit of READ_SCRATCH and READ_TEMP: RAW from the low 16 bits received, their reading under CTRL, and PRESENT in
STATUS (R133, R212). -/
theorem commitScratch_regs (v : State) :
    v.commitScratch.regs = { v.regs.withRaw (low 16 v.engine.buf) with status := v.commitPresent.regs.status } := by
  simp only [State.commitScratch, State.decodeTemp, Regs.reading, Regs.raw16, low_zext32]
  rfl

/-- The registers after READ_SCRATCH or READ_TEMP: RAW and its reading, PRESENT and DONE (R133, R134). -/
theorem complete_regs_of_scratch {v : State} (hc : v.commit i = v.commitScratch) (h : Stands (s.accept i) i n c e v)
    (hb : s.busy = false) :
    (v.complete i).regs = { s.regs.withRaw (low 16 e.buf) with status := withPresence e.pres s.regs.status } := by
  rw [complete_regs_of_present h hb (by rw [hc]; rfl), hc, commitScratch_regs, h.buf, h.regs]
  rfl

/-- The 16 received bits that the commit moves to RAW are the levels sampled, in order (R173). -/
theorem low_received_bit (s : State) (c : Nat) {j : Nat} (hj : j < 16) :
    (low 16 (s.received c 16)).getLsbD j = s.levelAt (c + j) := by
  simp [low, received_bit, hj]

/-- Phase 2 with a device present: its slots, then the completion with the sixteen levels in RAW and their reading
(R196, R212). -/
theorem scratchPhase_ends (h : Stands (s.accept i) i n c e u) (hb : s.busy = false) (he : e.pollE < 2 ^ 32)
    (hbuf : e.buf = 0) (hc : ∀ v : State, v.commit i = v.commitScratch)
    (hp : (program s.params (s.accept i).regs i).drop n = scratchProgram s.params) (hl : s.levelAt c = false) :
    ∃ (t : State) (raw : BitVec 16),
      TicksTo (scratchTicks s.params s.regs) u t (slotWaves s.params (scratchSlots s.params s.regs)) ∧
      (∀ j < 16, raw.getLsbD j = s.levelAt (c + 1 + j)) ∧
      Ended s t { s.regs.withRaw raw with status := withPresence true s.regs.status } (c + 17) := by
  have hlen := congrArg List.length hp
  simp only [List.length_drop, scratchProgram, List.length_cons, List.length_nil] at hlen
  have hget : (program s.params (s.accept i).regs i)[n + 3]? = some (.rb 2) := by
    rw [← List.getElem?_drop, hp]
    rfl
  obtain ⟨w, y, hw, hhead⟩ := exchangeHead_runs h (accept_busy s i) he hp hl
  obtain ⟨v, hv, hread⟩ := rb_runs hw (accept_busy s i) (Nat.two_pow_pos 32) hget Nat.two_pos rfl rfl hbuf
  rw [advance_completes hv (by rw [accept_params]; omega)] at hread
  have hrun := hhead.trans (hw.regs.trans h.regs.symm) hread
  have hticks : 960 + addrsTicks s.params s.regs + byteTicks s.params + 2 * byteTicks s.params =
      scratchTicks s.params s.regs := by
    unfold scratchTicks
    omega
  have hregs := complete_regs_of_scratch (hc v) hv hb
  refine ⟨_, _, ?_, fun _ => low_received_bit (s.accept i) (c + 1), complete_ended hv hregs⟩
  rw [← hticks, scratchSlots, ← List.cons_append, slotWaves_append]
  exact hrun

/-- Settles O35: READ_SCRATCH is phase 2 alone. -/
theorem readScratchReadsAndDecodes : Obligations.ReadScratchReadsAndDecodes := by
  intro s hb hl
  obtain ⟨t, raw, hrun, hbits, hend⟩ :=
    scratchPhase_ends (accept_stands s .readScratch) hb (start_pollE _) rfl (fun _ => rfl) rfl hl
  rw [Nat.zero_add] at hbits hend
  exact ⟨t, raw, ⟨_, exec_accepts rfl hb, hrun⟩, hbits, hend⟩

/-- Settles O36: phase 1 leads to phase 2, which runs with samples of its own to the commit. -/
theorem readTempRunsBothPhases : Obligations.ReadTempRunsBothPhases := by
  intro s q hb hl h0 h1 hN h2
  obtain ⟨u, y, hu, hphase⟩ := readTemp_reaches_scratchPhase hl h0 h1 hN
  obtain ⟨t, raw, hrun, hbits, hend⟩ := scratchPhase_ends hu hb (start_pollE true) rfl (fun _ => rfl) rfl h2
  have hfirst : 2 + q + 1 = 3 + q := by omega
  have hsamples : 2 + q + 17 = 19 + q := by omega
  rw [hfirst] at hbits
  rw [hsamples] at hend
  refine ⟨t, raw, ⟨_, exec_accepts rfl hb, ?_⟩, hbits, hend⟩
  rw [slotWaves_append]
  exact hphase.trans hu.regs hrun

end Sys2Proof.Machine
end

section
/-! PROOF of O17. DECODE on an idle machine at rest (R131, R134, R210, R212). -/

namespace Sys2Proof.Machine

variable {s : State}

/-- The decode step neither reads nor writes STATUS (R212, R221). -/
theorem decodeTemp_setStatus (s : State) (i : Nat) (b : Bool) :
    (s.setStatus i b).decodeTemp = s.decodeTemp.setStatus i b := rfl

/-- An idle machine at rest runs DECODE as the decode step and DONE (R210). -/
theorem presentNow_decode (hb : s.busy = false) (ha : s.AtRest) :
    s.presentNow .decode = s.decodeTemp.setStatus bitDone true := by
  have hcleared : (s.decodeTemp.setStatus bitDone false).busy = false := (setStatus_busy ..).trans hb
  have hrest : (s.decodeTemp.setStatus bitDone false).AtRest := ⟨ha.seq, ha.slot, ha.drive⟩
  calc s.presentNow .decode
      = (s.setStatus bitDone false).decodeTemp.endCommand := if_neg (Bool.eq_false_iff.mp hb)
    _ = (s.decodeTemp.setStatus bitDone false).setStatus bitDone true := by
        rw [decodeTemp_setStatus, endCommand_atRest hcleared hrest]
    _ = s.decodeTemp.setStatus bitDone true := by
        rw [State.setStatus, setStatus_status, setBit_same]
        rfl

/-- Settles O17: the formula of R212 is `Regs.reading`, and its two words are those of `decodeTemp`. -/
theorem decodeWritesTheReadingOfRaw : Obligations.DecodeWritesTheReadingOfRaw := by
  refine ⟨rfl, fun s hb => exec_busy (by decide) hb, fun s hb ha => ⟨s.regs.reading, rfl, ?_⟩⟩
  exact congrArg _ (presentNow_decode hb ha)

end Sys2Proof.Machine
end

section
/-! PROOF of O51 and O52. The Celsius formulas as arithmetic on the value of raw16 (R213, R215, R216). -/

namespace Sys2Proof.Machine

variable (r : BitVec 16)

/-- A field of raw16 as a quotient and a remainder of its value. -/
theorem field_toNat (i n : Nat) : (r.extractLsb' i n).toNat = r.toNat / 2 ^ i % 2 ^ n := by
  rw [BitVec.extractLsb'_toNat, Nat.shiftRight_eq_div_pow]

/-- raw16 as a two's complement number (R211). -/
theorem raw16_toInt : r.toInt = if r.toNat < 32768 then (r.toNat : Int) else r.toNat - 65536 := by
  rw [BitVec.toInt_eq_toNat_cond]
  split <;> split <;> omega

/-- Both Celsius formulas count raw16[3:0] in units of 625 (R213). -/
theorem celsiusFrac_byte0 : celsiusFrac (byte0 r) = (r.extractLsb' 0 4).toNat * 625 := by
  have hlow : (byte0 r &&& 0x0F).toNat = (byte0 r).toNat % 2 ^ 4 := by
    rw [BitVec.toNat_and]
    exact Nat.and_two_pow_sub_one_eq_mod _ 4
  rw [celsiusFrac, hlow, byte0, byteOf, field_toNat, field_toNat, Nat.mul_zero, Nat.mod_mod_of_dvd _ (by decide)]

theorem celsiusRef_frac : (celsiusRef r).frac = (r.extractLsb' 0 4).toNat * 625 := celsiusFrac_byte0 r

theorem celsiusSext_frac : (celsiusSext r).frac = (r.extractLsb' 0 4).toNat * 625 := celsiusFrac_byte0 r

theorem celsiusFrac_le : celsiusFrac (byte0 r) ≤ 9375 := by
  have hlt := (r.extractLsb' 0 4).isLt
  rw [celsiusFrac_byte0]
  omega

/-- The reference formula joins the low bits of byte 1 and the high bits of byte 0 to raw16[10:4] (R215). -/
theorem celsiusRef_whole : (celsiusRef r).whole = (r.extractLsb' 4 7).toNat := by
  have h0 : (byte0 r).toNat = r.toNat / 2 ^ 0 % 2 ^ 8 := field_toNat r 0 8
  have h1 : (byte1 r).toNat = r.toNat / 2 ^ 8 % 2 ^ 8 := field_toNat r 8 8
  have hhigh : ((byte1 r).setWidth 16 &&& 0x07).toNat = (byte1 r).toNat % 2 ^ 3 := by
    rw [BitVec.toNat_and, BitVec.toNat_setWidth, Nat.mod_eq_of_lt (by omega)]
    exact Nat.and_two_pow_sub_one_eq_mod _ 3
  have hshift : (((byte1 r).setWidth 16 &&& 0x07) <<< 4).toNat = ((byte1 r).toNat % 2 ^ 3) <<< 4 := by
    rw [BitVec.toNat_shiftLeft, hhigh, Nat.shiftLeft_eq, Nat.mod_eq_of_lt (by omega)]
  have hlow : ((byte0 r).setWidth 16 >>> 4).toNat = (byte0 r).toNat / 2 ^ 4 := by
    rw [BitVec.toNat_ushiftRight, BitVec.toNat_setWidth, Nat.shiftRight_eq_div_pow, Nat.mod_eq_of_lt (by omega)]
  dsimp only [celsiusRef]
  rw [BitVec.toNat_or, hshift, hlow, ← Nat.shiftLeft_add_eq_or_of_lt (by omega), Nat.shiftLeft_eq, field_toNat]
  omega

/-- RANGE of the reference formula: raw16[15:11] is not 0 (R215). -/
theorem celsiusRef_range : (celsiusRef r).range = true ↔ 2048 ≤ r.toNat := by
  have hr := r.isLt
  have hfield : (r.extractLsb' 11 5).toNat = r.toNat / 2048 := by
    rw [field_toNat]
    omega
  dsimp only [celsiusRef]
  rw [bne_iff_ne, ne_eq, ← BitVec.toNat_inj, hfield]
  show ¬ r.toNat / 2048 = 0 ↔ _
  omega

theorem celsiusRef_range_eq_false : (celsiusRef r).range = false ↔ r.toNat < 2048 := by
  rw [← Bool.not_eq_true, celsiusRef_range, not_le]

theorem celsiusSext_whole_eq_div : (celsiusSext r).whole = r.toInt / 16 :=
  Int.fdiv_eq_ediv_of_nonneg _ (by decide)

/-- Floor division by 16 leaves the signed field raw16[15:4] (R216). -/
theorem celsiusSext_whole : (celsiusSext r).whole = (r.extractLsb' 4 12).toInt := by
  have hr := r.isLt
  rw [celsiusSext_whole_eq_div, raw16_toInt, BitVec.toInt_eq_toNat_cond, field_toNat]
  split <;> split <;> omega

/-- The sign-extended formula splits raw at bit 4: sixteenths times 625 are ten-thousandths (R216). -/
theorem celsiusSext_exact : 10000 * (celsiusSext r).whole + (celsiusSext r).frac = 625 * r.toInt := by
  have hr := r.isLt
  rw [celsiusSext_whole_eq_div, celsiusSext_frac, field_toNat, raw16_toInt]
  split <;> omega

/-- Settles O51: the whole part and the fraction give raw16[10:0], which is raw exactly when the five bits above are 0. -/
theorem celsiusReferenceFormula : Obligations.CelsiusReferenceFormula := by
  intro r
  have hr := r.isLt
  have hexact : 10000 * (celsiusRef r).whole + (celsiusRef r).frac = 625 * r.toInt ↔ r.toNat < 2048 := by
    rw [celsiusRef_whole, celsiusRef_frac, field_toNat, field_toNat, raw16_toInt]
    split <;> omega
  have hvalue : r.toNat < 2048 ↔ 0 ≤ r.toInt ∧ r.toInt ≤ 2047 := by
    rw [raw16_toInt]
    split <;> omega
  exact ⟨celsiusRef_whole r, celsiusRef_frac r, rfl, celsiusRef_range r,
    hexact.trans (celsiusRef_range_eq_false r).symm, (celsiusRef_range_eq_false r).trans hvalue⟩

/-- Settles O52: exactness is `celsiusSext_exact`; the formula sets NEG from the sign and RANGE to 0. -/
theorem celsiusSextIsExact : Obligations.CelsiusSextIsExact := fun r =>
  ⟨celsiusSext_whole r, celsiusSext_frac r, celsiusSext_exact r, celsiusFrac_le r, decide_eq_true_iff, rfl⟩

end Sys2Proof.Machine
end

section
/-! PROOF of O53, O54 and O55. What each Fahrenheit formula denotes: truncation gives the magnitude of t and its sign,
floor division gives t as a sum (R217, R218, R219). -/

namespace Sys2Proof.Machine

variable (raw : Int)

/-! ### Truncation -/

/-- Truncation keeps the magnitude: ten times the whole part's and the digit (R218). -/
theorem fahrTrunc_magnitude :
    10 * (fahrTrunc raw).whole.natAbs + (fahrTrunc raw).frac = (tenthsTrunc raw).natAbs := by
  dsimp only [fahrTrunc]
  rw [Int.natAbs_tdiv, Int.natAbs_tmod]
  exact Nat.div_add_mod _ 10

theorem fahrTrunc_frac_le : (fahrTrunc raw).frac ≤ 9 := by
  have hlt : (tenthsTrunc raw).natAbs % 10 < 10 := Nat.mod_lt _ (by decide)
  dsimp only [fahrTrunc]
  rw [Int.natAbs_tmod]
  exact Nat.le_of_lt_succ hlt

theorem fahrTrunc_neg : (fahrTrunc raw).neg = true ↔ tenthsTrunc raw < 0 := decide_eq_true_iff

/-- Settles O53: the magnitude is `fahrTrunc_magnitude`, and NEG is the sign of t. -/
theorem fahrenheitTruncDenotesTenths : Obligations.FahrenheitTruncDenotesTenths := by
  intro raw
  have hmag := fahrTrunc_magnitude raw
  refine ⟨_, tenthsTrunc raw, ⟨rfl, rfl⟩, rfl, fahrTrunc_frac_le raw, fahrTrunc_neg raw, ?_, rfl⟩
  split
  · next hneg =>
    rw [fahrTrunc_neg] at hneg
    omega
  · next hneg =>
    rw [fahrTrunc_neg] at hneg
    omega

/-! ### Floor division -/

theorem tenthsFloor_eq : tenthsFloor raw = raw + raw / 8 + 320 := by
  rw [tenthsFloor, Int.fdiv_eq_ediv_of_nonneg _ (by decide)]

theorem fahrFloor_whole : (fahrFloor raw).whole = tenthsFloor raw / 10 :=
  Int.fdiv_eq_ediv_of_nonneg _ (by decide)

theorem fahrFloor_frac : (fahrFloor raw).frac = (tenthsFloor raw % 10).toNat :=
  congrArg Int.toNat (Int.fmod_eq_emod_of_nonneg _ (by decide))

theorem fahrFloor_frac_le : (fahrFloor raw).frac ≤ 9 := by
  rw [fahrFloor_frac]
  omega

/-- Floor division: ten times the whole part and the digit above it (R219). -/
theorem fahrFloor_denotes : 10 * (fahrFloor raw).whole + (fahrFloor raw).frac = tenthsFloor raw := by
  rw [fahrFloor_whole, fahrFloor_frac]
  omega

theorem fahrFloor_neg : (fahrFloor raw).neg = true ↔ tenthsFloor raw < 0 := decide_eq_true_iff

/-- Settles O54: the value is `fahrFloor_denotes`, for the t of `tenthsFloor_eq`. -/
theorem fahrenheitFloorDenotesTenths : Obligations.FahrenheitFloorDenotesTenths := by
  intro raw
  refine ⟨raw / 8, tenthsFloor raw, ⟨?_, ?_, tenthsFloor_eq raw⟩, fahrFloor_denotes raw, fahrFloor_frac_le raw,
    fahrFloor_neg raw, rfl⟩
  · omega
  · omega

/-! ### Where the policies agree -/

/-- The two halves differ by one exactly for a negative raw that is no multiple of 8 (R217). -/
theorem tenthsTrunc_eq : tenthsTrunc raw = tenthsFloor raw + if 0 ≤ raw ∨ (8 : Int) ∣ raw then 0 else 1 := by
  have hsign : (8 : Int).sign = 1 := rfl
  rw [tenthsFloor_eq, tenthsTrunc, Int.tdiv_eq_ediv, hsign]
  omega

/-- For the same t, not negative or a multiple of 10, both divisions by 10 give the same reading (R219). -/
theorem fahrTrunc_eq_fahrFloor (ht : tenthsTrunc raw = tenthsFloor raw)
    (h : 0 ≤ tenthsTrunc raw ∨ (10 : Int) ∣ tenthsTrunc raw) : fahrTrunc raw = fahrFloor raw := by
  have hwhole : (fahrTrunc raw).whole = (fahrFloor raw).whole := by
    rw [fahrFloor_whole, ← ht]
    exact Int.tdiv_eq_ediv.trans (by rw [if_pos h, Int.add_zero])
  have hfrac : (fahrTrunc raw).frac = (fahrFloor raw).frac := by
    have hmag := fahrTrunc_magnitude raw
    have hsum := fahrFloor_denotes raw
    have hle := fahrFloor_frac_le raw
    have hle' := fahrTrunc_frac_le raw
    omega
  rw [fahrTrunc, fahrFloor, Reading.mk.injEq]
  exact ⟨hwhole, hfrac, by rw [ht], rfl⟩

/-- Settles O55: a common reading (w, f) means t = 10 w + f under floor division; under truncation it means the same for
t ≥ 0, and t = 10 w - f for t < 0, so that then f = 0. -/
theorem fahrenheitPoliciesAgreeWhereStated : Obligations.FahrenheitPoliciesAgreeWhereStated := by
  intro raw
  have htenths := tenthsTrunc_eq raw
  constructor
  · intro heq
    have hmag := fahrTrunc_magnitude raw
    have hsum := fahrFloor_denotes raw
    have hle := fahrFloor_frac_le raw
    have hsign : tenthsTrunc raw < 0 ↔ tenthsFloor raw < 0 := by
      rw [← fahrTrunc_neg, heq, fahrFloor_neg]
    rw [heq] at hmag
    split at htenths
    · omega
    · omega
  · intro hraw
    have ht : tenthsTrunc raw = tenthsFloor raw := by
      rw [htenths, if_pos (hraw.imp id And.left), Int.add_zero]
    refine fahrTrunc_eq_fahrFloor raw ht ?_
    rcases hraw with hpos | ⟨-, h⟩
    · left
      rw [ht, tenthsFloor_eq]
      omega
    · exact h

end Sys2Proof.Machine
end

section
/-! PROOF of O56. The ranges over all 65536 raw values (R222). -/

namespace Sys2Proof.Machine

variable (r : BitVec 16)

theorem tenthsFloor_range : -36544 ≤ tenthsFloor r.toInt ∧ tenthsFloor r.toInt ≤ 37182 := by
  have hlo := r.le_toInt
  have hhi := r.toInt_lt
  rw [tenthsFloor_eq]
  omega

/-- Truncation raises t by one for some negative raw only, which leaves both bounds as they are (R217, R222). -/
theorem tenthsTrunc_range : -36544 ≤ tenthsTrunc r.toInt ∧ tenthsTrunc r.toInt ≤ 37182 := by
  have hlo := r.le_toInt
  have hhi := r.toInt_lt
  rw [tenthsTrunc_eq, tenthsFloor_eq]
  split <;> omega

theorem celsiusRef_whole_range : 0 ≤ (celsiusRef r).whole ∧ (celsiusRef r).whole ≤ 127 := by
  have hlt := (r.extractLsb' 4 7).isLt
  rw [celsiusRef_whole]
  omega

theorem celsiusSext_whole_range : -2048 ≤ (celsiusSext r).whole ∧ (celsiusSext r).whole ≤ 2047 := by
  rw [celsiusSext_whole]
  exact ⟨BitVec.le_toInt _, Int.le_of_lt_add_one BitVec.toInt_lt⟩

/-- Truncating division by 10 is monotone (R218). -/
theorem fahrTrunc_whole_range : -3654 ≤ (fahrTrunc r.toInt).whole ∧ (fahrTrunc r.toInt).whole ≤ 3718 :=
  (tenthsTrunc_range r).imp (Int.tdiv_le_tdiv (by decide)) (Int.tdiv_le_tdiv (by decide))

theorem fahrFloor_whole_range : -3655 ≤ (fahrFloor r.toInt).whole ∧ (fahrFloor r.toInt).whole ≤ 3718 := by
  have ht := tenthsFloor_range r
  rw [fahrFloor_whole]
  omega

theorem selectFormula_whole_range (u c f : Bool) :
    -3655 ≤ (selectFormula u c f r).whole ∧ (selectFormula u c f r).whole ≤ 3718 := by
  have href := celsiusRef_whole_range r
  have hsext := celsiusSext_whole_range r
  have htrunc := fahrTrunc_whole_range r
  unfold selectFormula
  split
  · split
    · exact fahrFloor_whole_range r
    · omega
  · split
    · omega
    · omega

/-- Packing loses nothing: every whole part fits 32-bit two's complement (R41, R222). -/
theorem selectFormula_wholeWord (u c f : Bool) :
    (selectFormula u c f r).wholeWord.toInt = (selectFormula u c f r).whole := by
  have hrange := selectFormula_whole_range r u c f
  exact BitVec.toInt_ofInt_eq_self (by decide) (by omega) (by omega)

/-- Settles O56: one lemma for each range. -/
theorem readingsStayInRange : Obligations.ReadingsStayInRange := fun r =>
  ⟨tenthsTrunc_range r, tenthsFloor_range r, celsiusRef_whole_range r, celsiusSext_whole_range r, fahrTrunc_whole_range r,
    fahrFloor_whole_range r,
    ⟨celsiusFrac_le r, celsiusFrac_le r, fahrTrunc_frac_le r.toInt, fahrFloor_frac_le r.toInt⟩, selectFormula_wholeWord r⟩

end Sys2Proof.Machine
end

section
/-! PROOF of O5, O8 and O14. The errors a host step reports, a reserved code and a busy violation, and the host's return
from an error (R242, R243, R252). -/

namespace Sys2Proof.Machine

variable {s : State} {rest : List Event} {v : Word}

/-- A word with a reserved code takes its own arm of the presentation (R131). -/
theorem presentCommand_of_reserved (h : v.extractLsb' 0 4 = 0xD ∨ v.extractLsb' 0 4 = 0xE) (s : State) :
    presentCommand v s = .next s.presentReserved := by
  rw [presentCommand, decode_of_reserved h]

/-- A reserved code sets bit 6 of STATUS while busy, and bits 5 and 1 while idle (R242, R243). -/
theorem presentReserved_eq (s : State) : s.presentReserved = { s with regs := { s.regs with
    status := if s.busy then setBit s.regs.status 6 true else setBit (setBit s.regs.status 5 true) 1 true } } := by
  unfold State.presentReserved
  cases s.busy <;> rfl

/-- Settles O5: a write of a reserved code to CMD is `presentReserved`, busy or idle. -/
theorem reservedCodesAreReportedOnly : Obligations.ReservedCodesAreReportedOnly := by
  intro s v rest hp hcode
  rw [step_cons hp]
  calc hostStep (.write 4 0x04 v) { s with pending := rest }
      = .next ({ s with pending := rest } : State).presentReserved :=
        (hostStep_cmd v _).trans (presentCommand_of_reserved hcode _)
    _ = _ := congrArg _ (presentReserved_eq _)

/-- A busy machine drops a write of any code but ABORT's to CMD (R131, R243). -/
theorem presentCommand_busy (hv : v.extractLsb' 0 4 ≠ 0xF#4) (hb : s.busy = true) :
    presentCommand v s = .next s.busyViolation := by
  obtain ⟨i, hi, hd⟩ | ⟨hr, -⟩ := decode_cases v
  · have habort : i ≠ .abort := fun e => hv (by rw [hi, e]; rfl)
    exact (presentCommand_of_decode hd s).trans (exec_busy habort hb)
  · exact (presentCommand_of_reserved hr s).trans (congrArg _ (if_pos hb))

/-- A busy machine drops a write to an RW-idle register (R31, R243). -/
theorem writeReg_busy {r : Reg} (hc : r.accessClass = .rwIdle) (hb : s.busy = true) :
    writeReg r v s = .next s.busyViolation := by
  rw [writeReg, hc]
  exact congrArg _ (if_pos hb)

/-- Settles O8: each of the seven offsets is an RW-idle register's, and the eighth is CMD's. -/
theorem busyWriteOnlySetsErrBusy : Obligations.BusyWriteOnlySetsErrBusy := by
  intro s rest off v hoff hb hp
  rcases hoff with hmem | ⟨rfl, hv⟩
  · have hidle : ∀ o ∈ [(0x00 : Offset), 0x0C, 0x10, 0x14, 0x20, 0x2C, 0x30],
        ∃ r ∈ regAt o, r.accessClass = .rwIdle := by decide
    obtain ⟨r, hr, hc⟩ := hidle off hmem
    rw [regAt_off hr] at hp
    exact (step_writeReg r hp).trans (writeReg_busy hc hb)
  · exact (step_writeReg .cmd hp).trans (presentCommand_busy hv hb)

/-- Settles O14: `clrstat` is a write of ones to bits 1 to 7 of STATUS, which clears those that are W1C
(`statusWriteClearsWrittenOnes`). -/
theorem clrstatReturnsFromAnError : Obligations.ClrstatReturnsFromAnError := by
  intro s rest hp
  obtain ⟨st, hstep, hbits⟩ := statusWriteClearsWrittenOnes s rest 0xFE hp
  have hkeeps : ∀ j ∉ [1, 3, 4, 5, 6, 7], st.getLsbD j = s.regs.status.getLsbD j := fun j hj => by
    rw [hbits, if_neg fun h => hj h.1]
  have hones : ∀ j ∈ [1, 3, 4, 5, 6, 7], (0xFE : Word).getLsbD j = true := by decide
  refine ⟨st, hstep, hkeeps 0 (by decide), hkeeps 2 (by decide), fun j hj => ?_, fun j hj => hkeeps j fun hmem => ?_⟩
  · rw [hbits, if_pos ⟨hj, hones j hj⟩]
  · exact absurd hj ((by decide : ∀ k ∈ [1, 3, 4, 5, 6, 7], ¬ 8 ≤ k) j hmem)

end Sys2Proof.Machine
end

section
/-! PROOF of O33. Phase 1 up to POLL, and a poll whose time is up (R193, R241). -/

namespace Sys2Proof.Machine

variable {s : State} {i : Instr}

/-- CONVERT and READ_TEMP presented while idle are accepted (R131). -/
theorem exec_conversion (hi : i ∈ [Instr.convert, .readTemp]) (hb : s.busy = false) : exec i s = .next (s.accept i) := by
  have hticks : ∀ j ∈ [Instr.convert, .readTemp], (j != .nop && j != .decode && j != .abort) = true := by decide
  exact exec_accepts (hticks i hi) hb

/-- POLL is the fourth micro-step of phase 1 (R195). -/
theorem conversion_poll (hi : i ∈ [Instr.convert, .readTemp]) (p : Params) (r : Regs) :
    (program p r i)[3]? = some .poll := by
  obtain ⟨l, hp⟩ := program_conversion hi p r
  rw [hp]
  rfl

/-- Settles O33: phase 1 leads to POLL with the device's presence taken, the poll times out at the bound
(`poll_times_out`), and the error end records both (`raise_ended`). -/
theorem pollTimesOutExactlyAtTheBound : Obligations.PollTimesOutExactlyAtTheBound := by
  intro i s n hi hb hl hN hn h0
  have hbound : 0 + n = (s.accept i).regs.pollBound := (Nat.zero_add n).trans hN.symm
  obtain ⟨u, y, hu, hphase⟩ := conversion_reaches_poll hi hl
  obtain ⟨v, hv, hrun⟩ := poll_times_out (accept_busy s i) (conversion_poll hi _ _) n u 1 n _ le_rfl hu rfl rfl hbound
    (Nat.pos_of_ne_zero hn) h0
  exact ⟨_, ⟨_, exec_conversion hi hb, hphase.trans hu.regs hrun⟩, raise_ended .timeout hv hb⟩

end Sys2Proof.Machine
end

section
/-! PROOF of O40. From a state that meets the invariant every defined event has a next state (R82, R251). -/

namespace Sys2Proof.Machine

variable {s : State} {e : Event}

/-- A good machine ticks: while busy it stands at a micro-step, and an idle engine stays as it is (R130, R138). -/
theorem State.Inv.engineTick_next (hi : s.Inv) : ∃ t, engineTick s = .next t := by
  cases hb : s.busy with
  | false => exact ⟨s, engineTick_idle hb⟩
  | true =>
    obtain ⟨m, hm⟩ := hi.runs hb
    exact Machine.engineTick_next fun _ => hm.current

/-- A clock cycle of a good machine counts, or is the last of its tick, or finds the engine idle (R130). -/
theorem State.Inv.clockEvent_next (hi : s.Inv) : ∃ t, clockEvent s = .next t := by
  cases hb : s.busy with
  | false => exact ⟨s, if_neg (Bool.eq_false_iff.mp hb)⟩
  | true =>
    by_cases hc : s.engine.psc + 1 < s.regs.tickCycles
    · exact ⟨_, clockEvent_counts hb hc⟩
    · rw [clockEvent_ticks hb hc]
      exact hi.engineTick_next

theorem State.Inv.runEvent_next (hi : s.Inv) (hd : e.Defined) : ∃ t, runEvent e s = .next t := by
  cases e with
  | host a =>
    obtain ⟨t, ht, -⟩ := hostStep_does hd s
    exact ⟨t, ht⟩
  | tick => exact hi.engineTick_next
  | clk => exact hi.clockEvent_next
  | rst a => exact ⟨s.resetCycle, rfl⟩

/-- An undefined event is a host access, which is refused and does not fault (R82, R251). -/
theorem State.Inv.runEvent_no_fault (hi : s.Inv) (e : Event) (r : Fault) : runEvent e s ≠ .fault r := by
  have hdefined : e.Defined → runEvent e s ≠ .fault r := fun hd h => by
    obtain ⟨t, ht⟩ := hi.runEvent_next hd
    cases ht.symm.trans h
  cases e with
  | host a => exact hostStep_no_fault a s r
  | tick => exact hdefined trivial
  | clk => exact hdefined trivial
  | rst a => exact hdefined trivial

/-- Settles O40: a step runs the next event from a state that meets the invariant too (`taken_inv`). -/
theorem goodMachineNeverStops : Obligations.GoodMachineNeverStops := by
  intro s hi
  rw [step_eq]
  exact ⟨(taken_inv hi).runEvent_no_fault s.nextEvent, (taken_inv hi).runEvent_next⟩

end Sys2Proof.Machine
end

section
/-! PROOF of O57. What each event does to `irq` = CTRL.IE AND STATUS.DONE (R250). -/

namespace Sys2Proof.Machine

variable {s t : State} {v : Word}

/-! ### The level -/

/-- `irq` reads CTRL and DONE alone (R250). -/
theorem irq_congr (hc : t.regs.ctrl = s.regs.ctrl) (hd : t.done = s.done) : t.irq = s.irq := by
  rw [State.irq, Regs.ie, hc, hd]
  rfl

theorem irq_of_done (hc : t.regs.ctrl = s.regs.ctrl) (hd : t.done = true) : t.irq = s.regs.ctrl.getLsbD 4 := by
  rw [State.irq, Regs.ie, hc, hd, Bool.and_true]

theorem irq_of_not_done (hd : t.done = false) : t.irq = false := by
  rw [State.irq, hd, Bool.and_false]

/-! ### The events that set the level -/

/-- An event that is no tick is announced: it stands at the head of the order (R100). -/
theorem pending_of_nextEvent {e : Event} (h : s.nextEvent = e) (he : e ≠ .tick) : s.pending = e :: s.taken.pending := by
  unfold State.nextEvent at h
  cases hp : s.pending with
  | nil => exact absurd (by rw [← h, hp]; rfl) he
  | cons x rest =>
    rw [hp] at h
    rw [State.taken, hp]
    exact congrArg (· :: rest) h

/-- A step whose event is a write to a register is the write to the machine with the event taken off (R85). -/
theorem step_writeReg_of_nextEvent (r : Reg) (h : s.nextEvent = .host (.write 4 r.off v)) :
    step s = writeReg r v s.taken :=
  step_writeReg r (pending_of_nextEvent h nofun)

/-- NOP and DECODE of an idle machine end in its own completion, a reserved code in ERR_ILLEGAL: DONE is set and CTRL
kept (R131, R242). -/
theorem presentCommand_sets_done (hb : s.busy = false) (hv : v.extractLsb' 0 4 ∈ [0x0#4, 0xC, 0xD, 0xE])
    (h : presentCommand v s = .next t) : t.done = true ∧ t.regs.ctrl = s.regs.ctrl := by
  have hnow : ∀ i, s.presentNow i = (s.setStatus bitDone false).complete i := fun _ =>
    if_neg (Bool.eq_false_iff.mp hb)
  have hreserved : s.presentReserved = s.illegalCommand := if_neg (Bool.eq_false_iff.mp hb)
  have hcode : (∃ i, decode v = .ok i ∧ exec i s = .next (s.presentNow i)) ∨
      presentCommand v s = .next s.presentReserved := by
    simp only [List.mem_cons, List.not_mem_nil, or_false] at hv
    rcases hv with hv | hv | hv
    · exact .inl ⟨.nop, decode_of_opcode hv, rfl⟩
    · exact .inl ⟨.decode, decode_of_opcode hv, rfl⟩
    · exact .inr (presentCommand_of_reserved hv s)
  obtain ⟨i, hd, hexec⟩ | hres := hcode
  · rw [presentCommand_of_decode hd, hexec, hnow] at h
    cases h
    exact ⟨endCommand_done _, (complete_sameOperands _ i).ctrl⟩
  · rw [hres, hreserved] at h
    cases h
    exact ⟨by simp [State.illegalCommand], rfl⟩

/-- The codes 0x1 to 0xB are those of the commands with ticks (R111). -/
theorem ticks_of_opcode {i : Instr} (h1 : 0x1#4 ≤ opcode i) (hB : opcode i ≤ 0xB#4) :
    (i != .nop && i != .decode && i != .abort) = true := by
  revert h1 hB
  cases i <;> decide

/-- A write of a code from 0x1 to 0xB to CMD of an idle machine is accepted (R131, R132). -/
theorem presentCommand_accepts (hb : s.busy = false) (h1 : 0x1#4 ≤ v.extractLsb' 0 4) (hB : v.extractLsb' 0 4 ≤ 0xB#4) :
    ∃ i, presentCommand v s = .next (s.accept i) := by
  obtain ⟨i, hi, hd⟩ | ⟨hr, -⟩ := decode_cases v
  · rw [hi] at h1 hB
    exact ⟨i, (presentCommand_of_decode hd s).trans (exec_accepts (ticks_of_opcode h1 hB) hb)⟩
  · rcases hr with hr | hr <;> exact absurd (hr ▸ hB) (by decide)

/-- A written 1 clears DONE (R35). -/
theorem clearStatus_done (s : State) (hv : v.getLsbD 1 = true) : (s.clearStatus v).done = false := by
  rw [State.done, clearStatus_getLsbD, hv]
  simp

/-- A reset cycle clears DONE (R70, R270). -/
theorem resetCycle_done (s : State) : s.resetCycle.done = false := BitVec.getLsbD_zero

/-- An idle write to CTRL leaves the written IE AND DONE (R31, R250). -/
theorem writeIdle_ctrl_irq (hb : s.busy = false) : (s.writeIdle .ctrl v).irq = (v.getLsbD 4 && s.done) := by
  have hmask : (Reg.mask .ctrl).getLsbD 4 = true := rfl
  rw [State.writeIdle, if_neg (Bool.eq_false_iff.mp hb)]
  show ((v &&& Reg.mask .ctrl).getLsbD 4 && s.done) = _
  rw [BitVec.getLsbD_and, hmask, Bool.and_true]

/-! ### Nothing else moves it -/

/-- A tick moves `irq` only by ending the command (R134, R245). -/
theorem TickEnds.moves_irq {m : MicroStep} (h : TickEnds m s t) (hne : t.irq ≠ s.irq) : t.busy = false := by
  cases h with
  | goesOn h => exact absurd (irq_congr (by rw [h.regs]) (by rw [State.done, h.regs]; rfl)) hne
  | completes u i _ _ _ ends => rw [ends, complete_busy]
  | raises u e _ _ ends => rw [ends, raise_busy]

/-- An RW-idle register other than CTRL is no part of `irq` (R250). -/
theorem put_irq {r : Reg} (hc : r.accessClass = .rwIdle) (hr : r ≠ .ctrl) (s : State) (v : Word) :
    ({ s with regs := s.regs.put v r } : State).irq = s.irq :=
  irq_congr (get_put_other s.regs v r .ctrl hr) (congrArg (·.getLsbD bitDone) (put_rwIdle_status s.regs v hc))

/-- The host accesses that move `irq`: ABORT of a running command, a 1 written to DONE, a command other than ABORT or a
reserved code presented while idle, and an idle write to CTRL (R250). -/
theorem HostDoes.moves_irq {a : HostAccess} (hd : HostDoes a s t) (hne : t.irq ≠ s.irq) :
    (s.busy = true ∧ t.busy = false) ∨ (∃ v, a = .write 4 0x08 v ∧ v.getLsbD 1 = true) ∨
    (s.busy = false ∧ ∃ v, a = .write 4 0x04 v ∧ v.extractLsb' 0 4 ≠ 0xF#4) ∨
    (s.busy = false ∧ ∃ v, a = .write 4 0x00 v) := by
  have hcode : ∀ {v : Word}, decode v ≠ .ok .abort → v.extractLsb' 0 4 ≠ 0xF#4 := fun h e => h (decode_of_opcode e)
  have hother : ∀ {v : Word} {i : Instr}, decode v = .ok i → i ≠ .abort → decode v ≠ .ok .abort := by
    intro v i hv hi h
    cases hv.symm.trans h
    exact hi rfl
  cases hd with
  | reads v h => exact absurd (by rw [h]; rfl) hne
  | ignored h => exact absurd (by rw [h]) hne
  | violates _ h =>
    refine absurd ?_ hne
    rw [h]
    exact irq_congr rfl (setStatus_done ..)
  | clears v acc h =>
    cases hv : v.getLsbD 1 with
    | true => exact .inr (.inl ⟨v, acc, hv⟩)
    | false =>
      refine absurd (irq_congr (by rw [h]; rfl) ?_) hne
      rw [h, State.done, clearStatus_getLsbD, hv, Bool.false_and, Bool.not_false, Bool.and_true]
      rfl
  | stores r v idle cls h acc =>
    by_cases hr : r = .ctrl
    · exact .inr (.inr (.inr ⟨idle, v, by rw [acc, hr]; rfl⟩))
    · exact absurd (by rw [h, put_irq cls hr]) hne
  | illegal idle _ acc =>
    obtain ⟨v, op, ha, hv⟩ := acc
    exact .inr (.inr (.inl ⟨idle, v, ha, hcode (by rw [hv]; nofun)⟩))
  | accepts i idle ticks _ acc =>
    obtain ⟨v, ha, hv⟩ := acc
    have habort : i ≠ .abort := fun e => ticks (by rw [e]; rfl)
    exact .inr (.inr (.inl ⟨idle, v, ha, hcode (hother hv habort)⟩))
  | atOnce i idle which _ acc =>
    obtain ⟨v, ha, hv⟩ := acc
    have habort : i ≠ .abort := by rcases which with rfl | rfl <;> decide
    exact .inr (.inr (.inl ⟨idle, v, ha, hcode (hother hv habort)⟩))
  | aborts busy h => exact .inl ⟨busy, by rw [h, State.abortRunning, setStatus_busy]; exact endCommand_busy _⟩

/-- The steps that move `irq` (R250). -/
theorem step_moves_irq (h : step s = .next t) (hne : t.irq ≠ s.irq) :
    (s.busy = true ∧ t.busy = false) ∨ (∃ a, s.nextEvent = .rst a) ∨
    (∃ v, s.nextEvent = .host (.write 4 0x08 v) ∧ v.getLsbD 1 = true) ∨
    (s.busy = false ∧ ∃ v, s.nextEvent = .host (.write 4 0x04 v) ∧ v.extractLsb' 0 4 ≠ 0xF#4) ∨
    (s.busy = false ∧ ∃ v, s.nextEvent = .host (.write 4 0x00 v)) := by
  obtain ⟨a, ha, -⟩ | ⟨a, ha, hHost⟩ | ⟨-, rfl⟩ | ⟨-, -, rfl⟩ | ⟨hb, m, -, hTick⟩ := step_cases h
  · exact .inr (.inl ⟨a, ha⟩)
  · rw [ha]
    obtain hends | ⟨v, rfl, hv⟩ | ⟨hb, v, rfl, hv⟩ | ⟨hb, v, rfl⟩ := hHost.moves_irq hne
    · exact .inl hends
    · exact .inr (.inr (.inl ⟨v, rfl, hv⟩))
    · exact .inr (.inr (.inr (.inl ⟨hb, v, rfl, hv⟩)))
    · exact .inr (.inr (.inr (.inr ⟨hb, v, rfl⟩)))
  · exact absurd rfl hne
  · exact absurd rfl hne
  · exact .inl ⟨hb, hTick.moves_irq hne⟩

/-- Settles O57: what the end of a command leaves is O43's; each event that sets the level has its lemma, and
`step_moves_irq` says that there is no other. -/
theorem interruptIsIeAndDone : Obligations.InterruptIsIeAndDone := by
  refine ⟨fun _ => rfl, fun s t h => ⟨fun hs ht hr => ?_, fun v he hb hv => ?_, fun v he hb h1 hB => ?_,
    fun v he hv => ?_, fun v he hb => ?_, fun a he => ?_, step_moves_irq h⟩⟩
  · obtain ⟨-, -, hirq⟩ := everyEndSetsDoneAndReleasesTheLine s t hs h ht hr
    exact hirq
  · rw [step_writeReg_of_nextEvent .cmd he] at h
    obtain ⟨hdone, hctrl⟩ := presentCommand_sets_done (s := s.taken) hb hv h
    exact irq_of_done hctrl hdone
  · obtain ⟨i, hacc⟩ := presentCommand_accepts (s := s.taken) hb h1 hB
    cases h.symm.trans ((step_writeReg_of_nextEvent .cmd he).trans hacc)
    exact irq_of_not_done (accept_done _ i)
  · cases h.symm.trans (step_writeReg_of_nextEvent .status he)
    exact irq_of_not_done (clearStatus_done _ hv)
  · cases h.symm.trans (step_writeReg_of_nextEvent .ctrl he)
    exact writeIdle_ctrl_irq (s := s.taken) hb
  · rw [step_eq, he] at h
    cases h
    exact irq_of_not_done (resetCycle_done _)

end Sys2Proof.Machine
end

section
/-! PROOF of O12 and O42. What a cycle of `rst` leaves (R70, R270, R271), and what a step that leaves a command running
keeps (R31, R134, R281). -/

namespace Sys2Proof.Machine

variable {s t : State}

/-! ### The reset cycle -/

/-- A step whose event is a cycle of `rst` is the reset cycle, whatever host access is made in it (R270). -/
theorem step_rst {rest : List Event} {a : Option HostAccess} (h : s.pending = .rst a :: rest) :
    step s = .next ({ s with pending := rest } : State).resetCycle :=
  step_cons h

/-- No command runs after a reset cycle (R70, R270). -/
theorem resetCycle_busy (s : State) : s.resetCycle.busy = false := BitVec.getLsbD_zero

/-- Settles O12: `Regs.reset` holds the listed literals, the engine is `Engine.reset`, and DONE of the reset cycle is
0 (`resetCycle_done`), so `irq` is 0. -/
theorem resetCycleRestoresEveryResetValue : Obligations.ResetCycleRestoresEveryResetValue := by
  unfold Obligations.ResetCycleRestoresEveryResetValue
  intro s rest a hp
  have hirq := irq_of_not_done (resetCycle_done { s with pending := rest })
  exact ⟨_, step_rst hp, rfl, rfl, rfl, hirq, rfl, rfl, rfl, rfl, rfl⟩

/-! ### A command that goes on -/

/-- A step after which a command runs is no reset cycle. -/
theorem nextEvent_ne_rst_of_busy (h : step s = .next t) (ht : t.busy = true) (a : Option HostAccess) :
    s.nextEvent ≠ .rst a := by
  intro ha
  rw [step_eq, ha] at h
  cases h
  exact absurd ht (by rw [resetCycle_busy]; decide)

/-- While busy nothing is stored, and a commit comes with the command's end: if it goes on, only STATUS was written
(R31, R134). -/
theorem Writes.statusOnly_of_busy (hw : Writes s t) (hs : s.busy = true) (ht : t.busy = true) :
    t.regs = s.regs.put t.regs.status .status := by
  cases hw with
  | statusOnly h => exact h
  | stores _ _ idle => exact absurd (idle.symm.trans hs) Bool.false_ne_true
  | commits i u _ _ ends =>
    rw [ends, complete_busy] at ht
    exact absurd ht Bool.false_ne_true

/-- A step that leaves a command running keeps PRESENT: no host access writes it, and a tick that does ends the
command (R47, R281). -/
theorem step_present_of_busy (h : step s = .next t) (ht : t.busy = true) : t.present = s.present := by
  obtain ⟨a, ha, -⟩ | ⟨_, -, hHost⟩ | ⟨-, rfl⟩ | ⟨-, -, rfl⟩ | ⟨-, m, hm, hTick⟩ := step_cases h
  · exact absurd ha (nextEvent_ne_rst_of_busy h ht a)
  · exact hHost.present
  · rfl
  · rfl
  · by_contra hne
    obtain ⟨hend, -⟩ := hTick.present hm hne
    exact absurd (hend.symm.trans ht) Bool.false_ne_true

/-- Settles O42: of what a step can write (`step_writes`) only STATUS is left, and of STATUS not PRESENT. -/
theorem nothingIsVisibleBeforeCompletion : Obligations.NothingIsVisibleBeforeCompletion := by
  unfold Obligations.NothingIsVisibleBeforeCompletion
  intro s t hs h ht
  refine ⟨fun r hr => ?_, step_present_of_busy h ht⟩
  obtain ⟨a, ha⟩ | hw := step_writes h
  · exact absurd ha (nextEvent_ne_rst_of_busy h ht a)
  · rw [hw.statusOnly_of_busy hs ht]
    exact get_put_other s.regs _ .status r hr.symm

end Sys2Proof.Machine
end
